-- ==== Sys2Proof/Word.lean ====
section
/-! DEFINITION. The widths the spec names and the words of those widths (00_scope.md R8 to R11). -/

namespace Sys2Proof

/-- One encoded byte, an element of IN or OUT (00_scope.md R10). -/
abbrev Byte := BitVec 8

/-- A value to encode or a decoded value, an element of VIN or VOUT (00_scope.md R10). -/
abbrev U64 := BitVec 64

/-- A command word, transferred whole (30_encoding.md R77). -/
abbrev CmdWord := BitVec 72

/-- A response word (30_encoding.md R86). -/
abbrev RspWord := BitVec 108

end Sys2Proof
end

