-- ==== Sys2Proof/Config.lean ====
section
/-! DEFINITION. The implementation parameters of 00_scope.md R8 and R9. The widths are written as numerals in
the types that have them; `Tests/Slice0.lean` ties each numeral to its parameter. The spec leaves no value of a
modelled run open (10_state.md R38), so there is no free value here. -/

namespace Sys2Proof.Config

/-- `VALUE_W` (R8). -/
def valueW : Nat := 64

/-- `GROUP_W`: data bits per encoded byte (R8). -/
def groupW : Nat := 7

/-- `CONT_BIT`: the continuation bit of an encoded byte (R8). -/
def contBit : Nat := 7

/-- `MAX_ENC_LEN`: most bytes of one encoded value (R8). -/
def maxEncLen : Nat := 10

/-- `MIN_ENC_LEN` (R8). -/
def minEncLen : Nat := 1

/-- `LEN_W` (R9). -/
def lenW : Nat := 32

/-- `CNT_W` (R9). -/
def cntW : Nat := 32

/-- `NBYTES_W` (R9). -/
def nbytesW : Nat := 36

/-- `IDX_W` (R9). -/
def idxW : Nat := 4

/-- The value at which `DEC_IDX` saturates (00_scope.md R9, 10_state.md R27). -/
def idxSaturation : Nat := 10

/-- What the decoder does with value bits beyond bit 63. R9 fixes the parameter to `TRUNCATE`; a reporting
policy is not specified (93_implementation_defined.md I1), so it has no constructor. -/
inductive OverflowPolicy where
  | truncate
deriving DecidableEq, Repr

/-- `OVERFLOW_POLICY` (R9). -/
def overflowPolicy : OverflowPolicy := .truncate

end Sys2Proof.Config
end

