-- ==== Sys2Proof/Syntax.lean ====
section
/-! DEFINITION. The commands of the block, one constructor per row of spec/opcode_table.json (30_encoding.md
R77 to R84). Every command carries both operand fields: a field a command does not use is ignored by it and is
latched all the same (R78, 10_state.md R40). -/

namespace Sys2Proof

/-- A legal command (00_scope.md R2, 30_encoding.md R79). -/
inductive Instr where
  /-- ENC_ONE: encode VIN[0] (40_encoder.md R102); both fields ignored. -/
  | encOne (len count : BitVec 32)
  /-- ENC_MANY: encode VIN[0 .. count-1] (40_encoder.md R103); `len` ignored. -/
  | encMany (len count : BitVec 32)
  /-- DEC_ONE: decode one value from IN[0 .. len-1] (41_decoder.md R125); `count` ignored. -/
  | decOne (len count : BitVec 32)
  /-- DEC_FIXED: decode exactly `count` values (41_decoder.md R126). -/
  | decFixed (len count : BitVec 32)
  /-- DEC_ALL: decode until the input is exhausted (41_decoder.md R127); `count` ignored. -/
  | decAll (len count : BitVec 32)
deriving DecidableEq, Repr

namespace Instr

/-- The opcode number of a command (30_encoding.md R79). -/
def opcode : Instr → BitVec 3
  | encOne _ _ => 0
  | encMany _ _ => 1
  | decOne _ _ => 2
  | decFixed _ _ => 3
  | decAll _ _ => 4

/-- The `LEN` field (30_encoding.md R77). -/
def len : Instr → BitVec 32
  | encOne l _ => l
  | encMany l _ => l
  | decOne l _ => l
  | decFixed l _ => l
  | decAll l _ => l

/-- The `COUNT` field (30_encoding.md R77). -/
def count : Instr → BitVec 32
  | encOne _ c => c
  | encMany _ c => c
  | decOne _ c => c
  | decFixed _ c => c
  | decAll _ c => c

end Instr

end Sys2Proof
end

