-- ==== Sys2Proof/WellFormed.lean ====
section
/-! DEFINITION. The four fields of a command word (30_encoding.md R77) and the two checks that make them a legal
command (10_state.md R36, 30_encoding.md R85). An ill-formed term is a `CommandFields` that fails a check. -/

namespace Sys2Proof

/-- The fields of the one command format (30_encoding.md R77). -/
structure CommandFields where
  op    : BitVec 3
  rsvd  : BitVec 5
  len   : BitVec 32
  count : BitVec 32
deriving DecidableEq, Repr

namespace CommandFields

/-- Opcodes 5, 6 and 7 are reserved (30_encoding.md R85). -/
def opLegal (f : CommandFields) : Bool := decide (f.op.toNat ≤ 4)

/-- The reserved field must be 0 (30_encoding.md R85). -/
def rsvdLegal (f : CommandFields) : Bool := f.rsvd == 0

/-- Command legality (10_state.md R36). -/
def legal (f : CommandFields) : Bool := f.opLegal && f.rsvdLegal

end CommandFields

/-- The fields a command stands for. -/
def Instr.fields (i : Instr) : CommandFields :=
  { op := i.opcode, rsvd := 0, len := i.len, count := i.count }

/-- A command is well-formed when the fields it stands for are legal. The operand fields are bit vectors of
their exact width, so every `Instr` is (Laws/PerInstr.lean); what can be ill-formed is a `CommandFields`. -/
def Instr.wellFormed (i : Instr) : Bool := i.fields.legal

end Sys2Proof
end

