-- ==== Sys2Proof/Decode.lean ====
section
/-! DEFINITION. Command words: fields, decoder (total on every 72-bit word, rejecting by name), encoder, and the
assembly of the textual commands (30_encoding.md R77 to R85, R89). -/

namespace Sys2Proof

/-- Why a command word is no command (30_encoding.md R85). -/
inductive DecodeError where
  /-- `OP` is 5, 6 or 7. -/
  | reservedOpcode (op : BitVec 3)
  /-- `OP` names a command and `RSVD` is not 0. -/
  | reservedBits (rsvd : BitVec 5)
deriving DecidableEq, Repr

/-- `cmd_word[2:0]` (R77). -/
def opField (w : CmdWord) : BitVec 3 := w.extractLsb' 0 3

/-- `cmd_word[7:3]` (R77). -/
def rsvdField (w : CmdWord) : BitVec 5 := w.extractLsb' 3 5

/-- `cmd_word[39:8]` (R77). -/
def lenField (w : CmdWord) : BitVec 32 := w.extractLsb' 8 32

/-- `cmd_word[71:40]` (R77). -/
def countField (w : CmdWord) : BitVec 32 := w.extractLsb' 40 32

/-- The fields of a command word (R77). -/
def splitWord (w : CmdWord) : CommandFields :=
  { op := opField w, rsvd := rsvdField w, len := lenField w, count := countField w }

/-- The command a legal record of fields selects (30_encoding.md R79 to R84), or why there is none (R85). -/
def decodeFields (f : CommandFields) : Except DecodeError Instr :=
  if ¬ f.opLegal then .error (.reservedOpcode f.op)
  else if ¬ f.rsvdLegal then .error (.reservedBits f.rsvd)
  else
    match f.op.toNat with
    | 0 => .ok (.encOne f.len f.count)
    | 1 => .ok (.encMany f.len f.count)
    | 2 => .ok (.decOne f.len f.count)
    | 3 => .ok (.decFixed f.len f.count)
    | 4 => .ok (.decAll f.len f.count)
    | _ => .error (.reservedOpcode f.op)

/-- The decoder: every one of the 2^72 words is exactly one of the five commands or illegal (R85). -/
def decode (w : CmdWord) : Except DecodeError Instr := decodeFields (splitWord w)

/-- `cmd_word = OP + RSVD × 2^3 + LEN × 2^8 + COUNT × 2^40` (R77). -/
def joinFields (f : CommandFields) : CmdWord :=
  BitVec.ofNat 72 (f.op.toNat + f.rsvd.toNat * 2 ^ 3 + f.len.toNat * 2 ^ 8 + f.count.toNat * 2 ^ 40)

/-- The encoder: the word of a command (R77, R79). -/
def encode (i : Instr) : CmdWord := joinFields i.fields

/-- The instruction the decoder reads from a word of the opcode table, bit 0 the least significant bit of the
command word. A command word has 72 bits; above `nbits` every bit is 0. -/
def decodeTableWord (nbits w : Nat) : Option Instr :=
  if w % 2 ^ nbits < 2 ^ 72 then (decode (BitVec.ofNat 72 (w % 2 ^ nbits))).toOption else none

/-- One line of the textual command syntax (30_encoding.md R89). -/
inductive AsmCommand where
  | encOne
  | encMany (count : BitVec 32)
  | decOne (len : BitVec 32)
  | decFixed (len count : BitVec 32)
  | decAll (len : BitVec 32)
  /-- `.cmd72`: a raw word, for illegal words. -/
  | cmd72 (w : CmdWord)
deriving DecidableEq, Repr

/-- The word a line assembles to; an omitted field assembles as 0 (30_encoding.md R89). -/
def assemble : AsmCommand → CmdWord
  | .encOne => encode (.encOne 0 0)
  | .encMany c => encode (.encMany 0 c)
  | .decOne l => encode (.decOne l 0)
  | .decFixed l c => encode (.decFixed l c)
  | .decAll l => encode (.decAll l 0)
  | .cmd72 w => w

end Sys2Proof
end

