-- ==== Sys2Proof/Machine/State.lean ====
section
/-! DEFINITION. The state of the machine as plain data: the sixteen registers of the block (10_state.md R29), the
host's four buffers (20_memory.md R50) and the host's side of the channels (10_state.md R21). -/

namespace Sys2Proof.Machine

/-- No step of this machine faults: the block has no trap (60_exceptions.md R158), raises no access fault
(20_memory.md R64), never hangs or stops (R156), and an error is a response, "not a model fault" (R155). So the
type has no constructor: nothing raises a fault (safe: there is none to hide behind). Log 8. -/
inductive Fault where
deriving DecidableEq, Repr

/-- Why a step is refused. -/
inductive Refusal where
  /-- An instruction that has no meaning yet, by its mnemonic: raised by no arm of `exec`, since all five have
  their meaning (safe). -/
  | notModelled (mnemonic : String)
deriving DecidableEq, Repr

/-- `PHASE` (10_state.md R24). -/
inductive Phase where
  /-- Waiting for a command. -/
  | idle
  /-- The encoder runs. -/
  | enc
  /-- The decoder runs. -/
  | dec
  /-- A response waits for the host. -/
  | rsp
deriving DecidableEq, Repr

/-- The error kinds a command can raise (60_exceptions.md R150). -/
inductive ErrorKind where
  /-- The input ended before a complete value or the requested count (R151). -/
  | unexpectedEndOfInput
  /-- The command word is reserved (R152). -/
  | illegalCommand
deriving DecidableEq, Repr

/-- The two levels of 00_scope.md R15 (log 4). -/
inductive Level where
  /-- A step that accepts a legal command runs it whole, to its response. -/
  | transaction
  /-- A step is one clock of 10_state.md R39: accepting, one VIN read, one byte, finishing. -/
  | microStep
deriving DecidableEq, Repr

/-- The complete state of one block, register by register (10_state.md R23 to R29). -/
structure Block where
  phase       : Phase
  cmdOp       : BitVec 3
  cmdLen      : BitVec 32
  cmdCount    : BitVec 32
  seqK        : BitVec 32
  pos         : BitVec 32
  nbytes      : BitVec 36
  encActive   : Bool
  encRem      : BitVec 64
  decActive   : Bool
  decAcc      : BitVec 64
  decIdx      : BitVec 4
  rspStatus   : BitVec 2
  rspConsumed : BitVec 32
  rspNvalues  : BitVec 32
  rspNbytes   : BitVec 36
deriving DecidableEq, Repr

/-- One buffer: the listed elements as (offset, element) pairs in canonical form (`Memory.wf`, Machine/Ops.lean).
`Memory 8` is a list of `Host.Cell`. -/
abbrev Memory (w : Nat) := List (Nat × BitVec w)

/-- The four buffers the host owns (20_memory.md R50). -/
structure Buffers where
  /-- `IN`. -/
  inp  : Memory 8
  /-- `VIN`. -/
  vin  : Memory 64
  /-- `OUT`. -/
  out  : Memory 8
  /-- `VOUT`. -/
  vout : Memory 64
deriving DecidableEq, Repr

/-- The host's side of the channels and of the reset input (10_state.md R21, R22; log 3, log 10). -/
structure Channels where
  /-- The `rst` input in this step. -/
  rst      : Bool
  /-- The `rsp_ready` input in this step. -/
  rspReady : Bool
  /-- The command words the host has still to issue, oldest first. `cmd_valid` is 1 exactly when there is one, and
  `cmd_word` is the oldest; a word leaves only by its transfer, which is the host duty of
  70_reset_and_hazards.md R176. -/
  offered  : List CmdWord
  /-- The response words transferred so far, oldest first (the model's own record of 10_state.md R42). -/
  taken    : List RspWord
deriving DecidableEq, Repr

/-- The state of the machine. -/
structure State where
  block : Block
  buf   : Buffers
  chan  : Channels
  /-- At which level an accepted command runs (the model's own field, log 4). -/
  level : Level
deriving DecidableEq, Repr

/-- Every register after reset: `PHASE = IDLE`, every other register 0 (10_state.md R30). -/
def Block.reset : Block :=
  { phase := .idle, cmdOp := 0, cmdLen := 0, cmdCount := 0, seqK := 0, pos := 0, nbytes := 0,
    encActive := false, encRem := 0, decActive := false, decAcc := 0, decIdx := 0,
    rspStatus := 0, rspConsumed := 0, rspNvalues := 0, rspNbytes := 0 }

/-- The machine right after reset: the block as 10_state.md R30 says; the buffers list nothing (log 2); the host
has released `rst` and offers nothing (log 1). -/
def State.reset : State :=
  { block := Block.reset,
    buf := { inp := [], vin := [], out := [], vout := [] },
    chan := { rst := false, rspReady := false, offered := [], taken := [] },
    level := .transaction }

end Sys2Proof.Machine
end

