-- ==== Sys2Proof/Machine/Flags.lean ====
section
/-! DEFINITION. Status codes, phase numbers and the response word. The block has no condition codes; the only
status a command leaves is `RSP_STATUS` (10_state.md R33). -/

namespace Sys2Proof.Machine

/-- The number of a phase in its 2-bit register (10_state.md R24). -/
def Phase.code : Phase → BitVec 2
  | .idle => 0
  | .enc => 1
  | .dec => 2
  | .rsp => 3

/-- Status `OK` (30_encoding.md R88). -/
def statusOk : BitVec 2 := 0

/-- `code(E)` (60_exceptions.md R153, 30_encoding.md R88). -/
def ErrorKind.code : ErrorKind → BitVec 2
  | .unexpectedEndOfInput => 1
  | .illegalCommand => 3

/-- `pack(s, c, n, b) = s + c × 2^8 + n × 2^40 + b × 2^72` (30_encoding.md R86). -/
def pack (s : BitVec 2) (c n : BitVec 32) (b : BitVec 36) : RspWord :=
  BitVec.ofNat 108 (s.toNat + c.toNat * 2 ^ 8 + n.toNat * 2 ^ 40 + b.toNat * 2 ^ 72)

/-- `rsp_word` (10_state.md R37). -/
def Block.rspWord (b : Block) : RspWord := pack b.rspStatus b.rspConsumed b.rspNvalues b.rspNbytes

end Sys2Proof.Machine
end

