-- ==== Sys2Proof/Machine/Ops.lean ====
section
/-! DEFINITION. The named operations over buffers and registers: reading and writing an element, latching a
command, `Finish`, raising an error, handing a response off, and reset. -/

namespace Sys2Proof.Machine

/-! ### Buffers (20_memory.md R50, R52, R62) -/

/-- What an element that is not listed reads as (log 2). -/
def Memory.unlisted (w : Nat) : BitVec w := 0

/-- `MemRead` of one element (00_scope.md R14, 20_memory.md R52). No side effect (R62). -/
def Memory.read {w : Nat} : Memory w → Nat → BitVec w
  | [], _ => Memory.unlisted w
  | (a, v) :: rest, k => if a = k then v else Memory.read rest k

/-- `MemWrite` of one element (00_scope.md R14, 20_memory.md R52), keeping the canonical form. -/
def Memory.write {w : Nat} : Memory w → Nat → BitVec w → Memory w
  | [], k, v => if v = Memory.unlisted w then [] else [(k, v)]
  | (a, x) :: rest, k, v =>
    if k < a then (if v = Memory.unlisted w then (a, x) :: rest else (k, v) :: (a, x) :: rest)
    else if k = a then (if v = Memory.unlisted w then rest else (k, v) :: rest)
    else (a, x) :: Memory.write rest k v

/-- Writes of consecutive elements from an offset on, in order. -/
def Memory.writeSeq {w : Nat} : Memory w → Nat → List (BitVec w) → Memory w
  | m, _, [] => m
  | m, k, v :: vs => Memory.writeSeq (Memory.write m k v) (k + 1) vs

/-- The elements at offsets `0` to `n - 1`. -/
def Memory.readSeq {w : Nat} (m : Memory w) (n : Nat) : List (BitVec w) :=
  (List.range n).map (Memory.read m)

/-- The canonical form from an offset on: offsets strictly rising, below `bound`, no listed element equal to what
an unlisted one reads as. -/
def Memory.wfFrom {w : Nat} (bound : Nat) : Nat → Memory w → Bool
  | _, [] => true
  | lo, (a, v) :: rest =>
    decide (lo ≤ a) && decide (a < bound) && !(v == Memory.unlisted w) && Memory.wfFrom bound (a + 1) rest

/-- The canonical form of a buffer with offsets `0` to `bound - 1`. -/
def Memory.wf {w : Nat} (bound : Nat) (m : Memory w) : Bool := Memory.wfFrom bound 0 m

/-- The four buffers are canonical over the offset ranges of 20_memory.md R50. -/
def Buffers.wf (b : Buffers) : Bool :=
  Memory.wf (2 ^ 32) b.inp && Memory.wf (2 ^ 32) b.vin && Memory.wf (2 ^ 36) b.out && Memory.wf (2 ^ 32) b.vout

/-! ### Commands (10_state.md R40 to R42) -/

/-- The register writes of `Accept` before its case split (10_state.md R40). -/
def Block.latch (op : BitVec 3) (len count : BitVec 32) (b : Block) : Block :=
  { b with
    cmdOp := op, cmdLen := len, cmdCount := count,
    seqK := 0, pos := 0, nbytes := 0,
    encActive := false, encRem := 0, decActive := false, decAcc := 0, decIdx := 0 }

/-- `Finish(s, c, n, b)` (10_state.md R41). -/
def Block.finish (s : BitVec 2) (c n : BitVec 32) (nb : BitVec 36) (b : Block) : Block :=
  { b with
    rspStatus := s, rspConsumed := c, rspNvalues := n, rspNbytes := nb,
    encActive := false, decActive := false, phase := .rsp }

/-- `raise E()`: `Finish(code(E), 0, 0, 0)`; nothing else is saved and control goes nowhere (60_exceptions.md
R153, R158). This is the one operation by which every error is taken; there is no return from it (R159) but the
response hand-off. -/
def Block.raise (e : ErrorKind) (b : Block) : Block := b.finish e.code 0 0 0

/-- The command transfer: the oldest offered word leaves the command channel (10_state.md R22). -/
def State.popCommand (s : State) : State := { s with chan := { s.chan with offered := s.chan.offered.tail } }

/-- `Accept` of a legal command in the micro-step: latch it and select the unit (10_state.md R40). No buffer is
touched. -/
def State.accept (i : Instr) (s : State) : State :=
  { s with
    block := { s.block.latch i.opcode i.len i.count with phase := if i.opcode.toNat ≤ 1 then .enc else .dec } }

/-- `Accept` of an illegal word: latch its fields and raise IllegalCommand in the same step (10_state.md R40,
60_exceptions.md R152). No buffer is touched. -/
def State.acceptIllegal (w : CmdWord) (s : State) : State :=
  { s with block := (s.block.latch (opField w) (lenField w) (countField w)).raise .illegalCommand }

/-- The response hand-off: the response transfers and `PHASE <- IDLE`; the response registers keep their values
(10_state.md R42). -/
def State.handOff (s : State) : State :=
  { s with
    block := { s.block with phase := .idle },
    chan := { s.chan with taken := s.chan.taken ++ [s.block.rspWord] } }

/-- A step with `rst == 1`: every register takes its reset value; no transfer, no buffer access
(70_reset_and_hazards.md R170, R173). -/
def State.resetStep (s : State) : State := { s with block := Block.reset }

/-- The command a host offers in place of every other: `w` is the oldest offered word of an idle block out of
reset, and runs at the transaction level (log 6). -/
def State.offerFirst (w : CmdWord) (s : State) : State :=
  { s with
    block := { s.block with phase := .idle },
    chan := { s.chan with rst := false, offered := w :: s.chan.offered },
    level := .transaction }

end Sys2Proof.Machine
end

