-- ==== Sys2Proof/Machine/Operands.lean ====
section
/-! DEFINITION. Operand assembly: the two fields of an encoded byte (30_encoding.md R70), the 64-bit shift
(00_scope.md R11), and the operand sequences of a command (20_memory.md R56, 30_encoding.md R78). -/

namespace Sys2Proof.Machine

/-- The continuation bit `C` of an encoded byte (30_encoding.md R70). -/
def contBitOf (b : Byte) : Bool := b.getLsbD 7

/-- The group `G` of an encoded byte, zero-extended to 64 bits (30_encoding.md R70, 00_scope.md R11). -/
def groupOf (b : Byte) : U64 := (b.extractLsb' 0 7).setWidth 64

/-- The byte that carries the low group of `r`, its continuation bit set when `more` (40_encoder.md R100). -/
def groupByte (r : U64) (more : Bool) : Byte :=
  (r.extractLsb' 0 7).setWidth 8 ||| (if more then 0x80#8 else 0x00#8)

/-- `shl64(a, n) = (a × 2^n) mod 2^64` for every natural `n` (00_scope.md R11). -/
def shl64 (a : U64) (n : Nat) : U64 := BitVec.ofNat 64 (a.toNat * 2 ^ n)

/-- The number of values of an encode command: 1 for ENC_ONE, else `CMD_COUNT` (40_encoder.md R104). -/
def Block.encodeCount (b : Block) : BitVec 32 := if b.cmdOp = 0 then 1 else b.cmdCount

/-- `vals`, the values an encode command of `m` values encodes (20_memory.md R56). -/
def Buffers.values (b : Buffers) (m : Nat) : List U64 := Memory.readSeq b.vin m

/-- `data`, the input of a decode command of length `len` (20_memory.md R56). -/
def Buffers.data (b : Buffers) (len : BitVec 32) : List Byte := Memory.readSeq b.inp len.toNat

end Sys2Proof.Machine
end

