-- ==== Sys2Proof/Machine/Decoder.lean ====
section
/-! DEFINITION. varint_decoder: the decode functions (41_decoder.md R120, R126, R127), the meanings of DEC_ONE,
DEC_FIXED and DEC_ALL (R125 to R128) and the decoder's micro-step (R130). -/

namespace Sys2Proof.Machine

/-- The loop of 41_decoder.md R120 from byte index `i` on, with the accumulator so far. -/
def decodeFrom (i : Nat) (value : U64) : List Byte → Except ErrorKind (U64 × List Byte)
  | [] => .error .unexpectedEndOfInput
  | b :: rest =>
    let value' := value ||| shl64 (groupOf b) (7 * i)
    if contBitOf b then decodeFrom (i + 1) value' rest else .ok (value', rest)

/-- `decodeOne(data)` (41_decoder.md R120). -/
def decodeOne (data : List Byte) : Except ErrorKind (U64 × List Byte) := decodeFrom 0 0 data

/-- `decodeFixed(data, N)` (41_decoder.md R126). -/
def decodeFixed (data : List Byte) : Nat → Except ErrorKind (List U64 × List Byte)
  | 0 => .ok ([], data)
  | n + 1 =>
    match decodeOne data with
    | .error e => .error e
    | .ok (v, rest) =>
      match decodeFixed rest n with
      | .error e => .error e
      | .ok (vs, rest') => .ok (v :: vs, rest')

/-- `decodeAll(data)` with fuel for the values it may still decode; each `decodeOne` consumes at least one byte, so
`data.length` is enough (41_decoder.md R127). -/
def decodeAllFuel : Nat → List Byte → Except ErrorKind (List U64)
  | _, [] => .ok []
  | 0, _ :: _ => .error .unexpectedEndOfInput
  | fuel + 1, b :: bs =>
    match decodeOne (b :: bs) with
    | .error e => .error e
    | .ok (v, rest) =>
      match decodeAllFuel fuel rest with
      | .error e => .error e
      | .ok vs => .ok (v :: vs)

/-- `decodeAll(data)` (41_decoder.md R127). -/
def decodeAll (data : List Byte) : Except ErrorKind (List U64) := decodeAllFuel data.length data

/-- What repeated `decodeOne` calls, at most `n` of them, give before one fails: the values `vs_p` of
41_decoder.md R128, and the input left at that point. -/
def decodedBefore (data : List Byte) : Nat → List U64 × List Byte
  | 0 => ([], data)
  | n + 1 =>
    match decodeOne data with
    | .error _ => ([], data)
    | .ok (v, rest) => (v :: (decodedBefore rest n).1, (decodedBefore rest n).2)

/-- The accumulator after every byte of an unterminated value has been read: `DEC_ACC` as the micro-step leaves it
when a value is cut short (41_decoder.md R130, log 5). -/
def accumulate (i : Nat) (value : U64) : List Byte → U64
  | [] => value
  | b :: rest => accumulate (i + 1) (value ||| shl64 (groupOf b) (7 * i)) rest

/-- `Finish(0, c, n, 0)` with the decoded values in VOUT from index 0 on (41_decoder.md R125 to R127). -/
def decodeSucceeds (vs : List U64) (consumed : Nat) (s : State) : State :=
  let n := BitVec.ofNat 32 vs.length
  let c := BitVec.ofNat 32 consumed
  { s with
    block := { s.block with seqK := n, pos := c }.finish statusOk c n 0,
    buf := { s.buf with vout := Memory.writeSeq s.buf.vout 0 vs } }

/-- `raise UnexpectedEndOfInput()` after the partial writes of 41_decoder.md R128: `vs` are the values decoded
before the failure and `cut` the bytes of the value the input ends in, all of them read (R133). The registers of
the value in flight are left as the micro-step leaves them (log 5). -/
def decodeFails (vs : List U64) (cut : List Byte) (s : State) : State :=
  { s with
    block := { s.block with
        seqK := BitVec.ofNat 32 vs.length
        pos := s.block.cmdLen
        decAcc := accumulate 0 0 cut
        decIdx := BitVec.ofNat 4 (min cut.length Config.idxSaturation) }.raise .unexpectedEndOfInput,
    buf := { s.buf with vout := Memory.writeSeq s.buf.vout 0 vs } }

/-- The state in which a decode command begins: its registers latched (10_state.md R40). -/
def beginDecode (op : BitVec 3) (len count : BitVec 32) (s : State) : State :=
  { s with block := s.block.latch op len count }

/-- DEC_ONE (41_decoder.md R125); `COUNT` is ignored. -/
def execDecOne (len count : BitVec 32) (s : State) : Host.Outcome State Fault Refusal :=
  let data := s.buf.data len
  let s0 := beginDecode 2 len count s
  .next (match decodeOne data with
    | .ok (v, rest) => decodeSucceeds [v] (data.length - rest.length) s0
    | .error _ => decodeFails [] data s0)

/-- DEC_FIXED (41_decoder.md R126, R128). -/
def execDecFixed (len count : BitVec 32) (s : State) : Host.Outcome State Fault Refusal :=
  let data := s.buf.data len
  let s0 := beginDecode 3 len count s
  .next (match decodeFixed data count.toNat with
    | .ok (vs, rest) => decodeSucceeds vs (data.length - rest.length) s0
    | .error _ =>
      decodeFails (decodedBefore data count.toNat).1 (decodedBefore data count.toNat).2 s0)

/-- DEC_ALL (41_decoder.md R127, R128); `COUNT` is ignored. -/
def execDecAll (len count : BitVec 32) (s : State) : Host.Outcome State Fault Refusal :=
  let data := s.buf.data len
  let s0 := beginDecode 4 len count s
  .next (match decodeAll data with
    | .ok vs => decodeSucceeds vs data.length s0
    | .error _ => decodeFails (decodedBefore data data.length).1 (decodedBefore data data.length).2 s0)

/-- `done` of the decoder's micro-step (41_decoder.md R130). -/
def Block.decodeDone (b : Block) : Bool :=
  !b.decActive &&
    ((b.cmdOp == 2 && b.seqK == 1) || (b.cmdOp == 3 && b.seqK == b.cmdCount) ||
      (b.cmdOp == 4 && b.pos == b.cmdLen))

/-- The accumulator and index a byte is added to: the registers while a value is in flight, else 0
(41_decoder.md R130, branch (c)). -/
def Block.inFlight (b : Block) : U64 × BitVec 4 := if b.decActive then (b.decAcc, b.decIdx) else (0, 0)

/-- The accumulator with the group of `byte` added; a group at index 10 or above adds nothing (41_decoder.md R130,
R131). -/
def addGroup (acc : U64) (idx : BitVec 4) (byte : Byte) : U64 :=
  if idx.toNat ≤ 9 then acc ||| shl64 (groupOf byte) (7 * idx.toNat) else acc

/-- The byte the decoder reads next, `IN[POS]` (41_decoder.md R130). -/
def State.decByte (s : State) : Byte := Memory.read s.buf.inp s.block.pos.toNat

/-- The accumulator once that byte is consumed (41_decoder.md R130). -/
def State.decNext (s : State) : U64 := addGroup s.block.inFlight.1 s.block.inFlight.2 s.decByte

/-- The decoder's micro-step (41_decoder.md R130): (a) finish, (b) fail at the end of the input, (c) consume one
byte. -/
def decStep (s : State) : State :=
  let b := s.block
  if b.decodeDone then
    { s with block := b.finish statusOk b.pos b.seqK 0 }
  else if b.pos = b.cmdLen then
    { s with block := b.raise .unexpectedEndOfInput }
  else if contBitOf s.decByte then
    { s with block := { b with
        pos := b.pos + 1
        decAcc := s.decNext
        decIdx := BitVec.ofNat 4 (min (b.inFlight.2.toNat + 1) Config.idxSaturation)
        decActive := true } }
  else
    { s with
      block := { b with pos := b.pos + 1, seqK := b.seqK + 1, decActive := false, decAcc := 0, decIdx := 0 },
      buf := { s.buf with vout := Memory.write s.buf.vout b.seqK.toNat s.decNext } }

end Sys2Proof.Machine
end

