-- ==== Sys2Proof/Machine/Encoder.lean ====
section
/-! DEFINITION. varint_encoder: the encode functions (40_encoder.md R100, R103), the meanings of ENC_ONE and
ENC_MANY (R102, R103) and the encoder's micro-step (R104, R105). -/

namespace Sys2Proof.Machine

/-- The loop of 40_encoder.md R100 on the remaining value, with fuel for the bytes it may still emit. -/
def encodeLoop : Nat → U64 → List Byte
  | 0, _ => []
  | fuel + 1, r =>
    if r >>> 7 = 0 then [groupByte r false] else groupByte r true :: encodeLoop fuel (r >>> 7)

/-- `encodeOne(v)` (40_encoder.md R100). Ten bytes of fuel are enough for 64 bits (R101). -/
def encodeOne (v : U64) : List Byte := if v = 0 then [0x00] else encodeLoop Config.maxEncLen v

/-- `encodeMany(vals)`: the concatenation, in input order (40_encoder.md R103). -/
def encodeMany (vals : List U64) : List Byte := (vals.map encodeOne).flatten

/-- An encode command of `m` values at the transaction level: OUT holds the encoding from offset 0 on, the response
reports `m` values and the exact byte count (40_encoder.md R102, R103). The sequencer registers are left as the
micro-step leaves them (log 5). -/
def encodeCommand (op : BitVec 3) (len count m : BitVec 32) (s : State) : State :=
  let bytes := encodeMany (s.buf.values m.toNat)
  let nb := BitVec.ofNat 36 bytes.length
  { s with
    block := { s.block.latch op len count with seqK := m, nbytes := nb }.finish statusOk 0 m nb,
    buf := { s.buf with out := Memory.writeSeq s.buf.out 0 bytes } }

/-- ENC_ONE (40_encoder.md R102): one value; `LEN` and `COUNT` are ignored. -/
def execEncOne (len count : BitVec 32) (s : State) : Host.Outcome State Fault Refusal :=
  .next (encodeCommand 0 len count 1 s)

/-- ENC_MANY (40_encoder.md R103): `COUNT` values; `LEN` is ignored. -/
def execEncMany (len count : BitVec 32) (s : State) : Host.Outcome State Fault Refusal :=
  .next (encodeCommand 1 len count count s)

/-- The byte the encoder emits from the remaining value (40_encoder.md R105). -/
def Block.encByte (b : Block) : Byte := groupByte b.encRem (decide (b.encRem >>> 7 ≠ 0))

/-- The encoder's micro-step: fetch a value or finish while none is in flight (40_encoder.md R104), else emit one
byte (R105). -/
def encStep (s : State) : State :=
  let b := s.block
  if b.encActive then
    let r := b.encRem >>> 7
    { s with
      block := { b with
        nbytes := b.nbytes + 1
        encRem := r
        encActive := decide (r ≠ 0)
        seqK := if r = 0 then b.seqK + 1 else b.seqK },
      buf := { s.buf with out := Memory.write s.buf.out b.nbytes.toNat b.encByte } }
  else if b.seqK = b.encodeCount then
    { s with block := b.finish statusOk 0 b.seqK b.nbytes }
  else
    { s with block := { b with encRem := Memory.read s.buf.vin b.seqK.toNat, encActive := true } }

end Sys2Proof.Machine
end

