-- ==== Sys2Proof/Machine/Dispatch.lean ====
section
/-! DEFINITION. One arm per command: what an accepted legal command does, from its accept to its response. -/

namespace Sys2Proof.Machine

/-- The transaction-level meaning of a command (00_scope.md R15). -/
def exec (i : Instr) (s : State) : Host.Outcome State Fault Refusal :=
  match i with
  | .encOne len count => Sys2Proof.Machine.execEncOne len count s
  | .encMany len count => Sys2Proof.Machine.execEncMany len count s
  | .decOne len count => Sys2Proof.Machine.execDecOne len count s
  | .decFixed len count => Sys2Proof.Machine.execDecFixed len count s
  | .decAll len count => Sys2Proof.Machine.execDecAll len count s

end Sys2Proof.Machine
end

