-- ==== Sys2Proof/Machine/Sequencer.lean ====
section
/-! DEFINITION. The choice of a step: by `rst`, then by `PHASE` and the channels (10_state.md R39), and, for an
accepted word, by the decoder. -/

namespace Sys2Proof.Machine

/-- What the block does in a step (10_state.md R39). -/
inductive Activity where
  /-- `rst == 1` (70_reset_and_hazards.md R170). -/
  | reset
  /-- `PHASE == IDLE` and no command is offered, or `PHASE == RSP` and the host does not take it: no change. -/
  | wait
  /-- The transfer of a legal command. -/
  | command (i : Instr)
  /-- The transfer of an illegal word. -/
  | illegal (w : CmdWord)
  /-- `EncStep()`. -/
  | encode
  /-- `DecStep()`. -/
  | decode
  /-- `PHASE == RSP` and the host takes the response. -/
  | handOff
deriving DecidableEq, Repr

/-- The transfer of a word: legal command or illegal word (10_state.md R36, R40). -/
def transferOf (w : CmdWord) : Activity :=
  match Sys2Proof.decode w with
  | .ok i => .command i
  | .error _ => .illegal w

/-- The choice of 10_state.md R39; reset wins over every other event (60_exceptions.md R157). -/
def activity (s : State) : Activity :=
  if s.chan.rst then .reset
  else
    match s.block.phase with
    | .idle =>
      match s.chan.offered with
      | [] => .wait
      | w :: _ => transferOf w
    | .enc => .encode
    | .dec => .decode
    | .rsp => if s.chan.rspReady then .handOff else .wait

end Sys2Proof.Machine
end

