-- ==== Sys2Proof/Machine/Step.lean ====
section
/-! DEFINITION. One step of the machine (10_state.md R39). A legal command that is transferred runs whole at the
transaction level and is only accepted at the micro-step level (00_scope.md R15, log 4); everything else is the
same at both levels. -/

namespace Sys2Proof.Machine

/-- One step (10_state.md R39). -/
def step (s : State) : Host.Outcome State Fault Refusal :=
  match activity s with
  | .reset => .next s.resetStep
  | .wait => .next s
  | .command i =>
    match s.level with
    | .transaction => exec i s.popCommand
    | .microStep => .next (s.popCommand.accept i)
  | .illegal w => .next (s.popCommand.acceptIllegal w)
  | .encode => .next (encStep s)
  | .decode => .next (decStep s)
  | .handOff => .next s.handOff

/-- `s` with the command word of a row of the opcode table (bit 0 its least significant bit, bits above `nbits`
zero) offered so that the very next step runs it whole (log 6). The block fetches nothing (20_memory.md R69):
what takes the place of a fetch is the command transfer. -/
def State.withFetchWord (s : State) (nbits w : Nat) : State :=
  s.offerFirst (BitVec.ofNat 72 (w % 2 ^ nbits))

end Sys2Proof.Machine
end

