-- ==== Sys2Proof/Machine/Ports.lean ====
section
/-! DEFINITION. The output ports of 10_state.md R21 in a step, as functions of the state (R37), and what the host
may read as the result of a command (R128, R129, 70_reset_and_hazards.md R178). A buffer port is shown as the access
it makes: `none` is enable 0, and the spec states no offset or data then (log 9). The ports show the accesses of the
micro-step; a command that runs at the transaction level makes all its accesses inside one step (log 4). -/

namespace Sys2Proof.Machine

/-- The output ports in one step (10_state.md R21). -/
structure PortOutputs where
  cmdReady : Bool
  rspValid : Bool
  /-- `rsp_word`; absent while `rst == 1`, where R37 states no value (log 9). -/
  rspWord  : Option RspWord
  /-- `in_rd_en` with `in_rd_off`. -/
  inRd     : Option (BitVec 32)
  /-- `vin_rd_en` with `vin_rd_idx`. -/
  vinRd    : Option (BitVec 32)
  /-- `out_wr_en` with `out_wr_off` and `out_wr_data`. -/
  outWr    : Option (BitVec 36 × Byte)
  /-- `vout_wr_en` with `vout_wr_idx` and `vout_wr_data`. -/
  voutWr   : Option (BitVec 32 × U64)
deriving DecidableEq, Repr

/-- The decoder is in branch (c) of 41_decoder.md R130: it consumes a byte in this step. -/
def Block.decConsumes (b : Block) : Bool := !b.decodeDone && !(b.pos == b.cmdLen)

/-- The output ports (10_state.md R37, 40_encoder.md R104, R105, 41_decoder.md R130). -/
def State.ports (s : State) : PortOutputs :=
  let b := s.block
  let encoding := !s.chan.rst && b.phase == .enc
  let decoding := !s.chan.rst && b.phase == .dec && b.decConsumes
  { cmdReady := !s.chan.rst && b.phase == .idle
    rspValid := !s.chan.rst && b.phase == .rsp
    rspWord := if s.chan.rst then none else some b.rspWord
    inRd := if decoding then some b.pos else none
    vinRd := if encoding && !b.encActive && !(b.seqK == b.encodeCount) then some b.seqK else none
    outWr := if encoding && b.encActive then some (b.nbytes, b.encByte) else none
    voutWr := if decoding && !contBitOf s.decByte then some (b.seqK, s.decNext) else none }

/-- `cmd_valid`: the host offers a command word (10_state.md R21, log 3). -/
def State.cmdValid (s : State) : Bool := !s.chan.offered.isEmpty

/-- `cmd_word` while `cmd_valid` is 1 (10_state.md R21, log 3). -/
def State.cmdWord (s : State) : Option CmdWord := s.chan.offered.head?

/-- The write of a port, if it makes one, at the end of the step (20_memory.md R52). -/
def Memory.applyWrite {w k : Nat} (m : Memory w) : Option (BitVec k × BitVec w) → Memory w
  | none => m
  | some (off, v) => Memory.write m off.toNat v

/-- The encoded bytes a host may read after a response: `OUT[0 .. RSP_NBYTES - 1]` (R178). -/
def State.outResult (s : State) : List Byte := Memory.readSeq s.buf.out s.block.rspNbytes.toNat

/-- The decoded values a host may read after the response of a decode command: `VOUT[0 .. RSP_NVALUES - 1]` (R178,
41_decoder.md R128). An encode command writes no VOUT element (20_memory.md R51). -/
def State.voutResult (s : State) : List U64 := Memory.readSeq s.buf.vout s.block.rspNvalues.toNat

/-- The rest after a successful decode command: `drop(RSP_CONSUMED, data)` (41_decoder.md R129). -/
def State.rest (s : State) : List Byte := (s.buf.data s.block.cmdLen).drop s.block.rspConsumed.toNat

end Sys2Proof.Machine
end

