-- ==== Sys2Proof/Machine/HostMoves.lean ====
section
/-! DEFINITION. What the host may do between two steps (10_state.md R20, R38). The host has no move that breaks a
duty (70_reset_and_hazards.md, section 3; log 12): an offered word stays until its transfer (R176), and a buffer is
written only while no command is running (R175). -/

namespace Sys2Proof.Machine

/-- A move of the host. -/
inductive HostMove where
  /-- Offer a command word, after every word offered before it. -/
  | offer (w : CmdWord)
  /-- Drive `rsp_ready`. -/
  | driveRspReady (b : Bool)
  /-- Drive `rst`. -/
  | driveRst (b : Bool)
  /-- Write an element of a buffer. -/
  | placeIn (k : BitVec 32) (v : Byte)
  | placeVin (k : BitVec 32) (v : U64)
  | placeOut (k : BitVec 36) (v : Byte)
  | placeVout (k : BitVec 32) (v : U64)
  /-- Choose the level at which the next commands run (the model's own move, log 4). -/
  | chooseLevel (l : Level)
deriving DecidableEq, Repr

/-- The moves a host may make in a state: no buffer write from the accept of a command to the transfer of its
response (R175). -/
def HostMove.allowed (s : State) : HostMove → Bool
  | .offer _ => true
  | .driveRspReady _ => true
  | .driveRst _ => true
  | .placeIn _ _ => s.block.phase == .idle
  | .placeVin _ _ => s.block.phase == .idle
  | .placeOut _ _ => s.block.phase == .idle
  | .placeVout _ _ => s.block.phase == .idle
  | .chooseLevel _ => true

/-- What a move does. -/
def HostMove.apply (s : State) : HostMove → State
  | .offer w => { s with chan := { s.chan with offered := s.chan.offered ++ [w] } }
  | .driveRspReady b => { s with chan := { s.chan with rspReady := b } }
  | .driveRst b => { s with chan := { s.chan with rst := b } }
  | .placeIn k v => { s with buf := { s.buf with inp := Memory.write s.buf.inp k.toNat v } }
  | .placeVin k v => { s with buf := { s.buf with vin := Memory.write s.buf.vin k.toNat v } }
  | .placeOut k v => { s with buf := { s.buf with out := Memory.write s.buf.out k.toNat v } }
  | .placeVout k v => { s with buf := { s.buf with vout := Memory.write s.buf.vout k.toNat v } }
  | .chooseLevel l => { s with level := l }

/-- A program: the command words of its lines offered one after another (30_encoding.md R89). -/
def State.loadProgram (s : State) (p : List AsmCommand) : State :=
  { s with chan := { s.chan with offered := s.chan.offered ++ p.map assemble } }

end Sys2Proof.Machine
end

