-- ==== Sys2Proof/Machine/System.lean ====
section
/-! DEFINITION. A system of `N_INST` instances that share no state, each with its own buffers and channels
(60_exceptions.md R165, 00_scope.md R9, log 13). -/

namespace Sys2Proof.Machine

/-- The instances of a system. They have no identifiers (R165); a position in the list names one here. -/
abbrev System := List State

/-- A system of `nInst` instances, each from its own reset (R165). -/
def System.reset (nInst : Nat) : System := List.replicate nInst State.reset

/-- One step of the instance at position `k`; a position with no instance changes nothing. -/
def System.stepAt (sys : System) (k : Nat) : Host.Outcome System Fault Refusal :=
  match sys[k]? with
  | none => .next sys
  | some s =>
    match step s with
    | .next s' => .next (sys.set k s')
    | .fault r => .fault r
    | .refused r => .refused r

end Sys2Proof.Machine
end

