-- ==== Sys2Proof/Safety.lean ====
section
/-! DEFINITION. The invariant of a run, and which states a run reaches: from reset, by steps of the block and moves of
the host that break no duty (70_reset_and_hazards.md R171, R175; 10_state.md R38). -/

namespace Sys2Proof.Machine

/-- `n` steps, with the host's side as it stands throughout; it stops at a fault or a refusal, of which there is none
(Laws/Step.lean). It is the run of the host's interface (`core_run`, Laws/Step.lean). -/
def run : Nat → State → Host.Outcome State Fault Refusal
  | 0, s => .next s
  | n + 1, s =>
    match step s with
    | .next t => run n t
    | .fault r => .fault r
    | .refused r => .refused r

/-- The registers of a block in a run. -/
structure Block.Inv (b : Block) : Prop where
  /-- Status code 2 is never written (60_exceptions.md R150). -/
  status_not_reserved : b.rspStatus ≠ 2
  /-- An error response reports nothing (30_encoding.md R87). -/
  error_reports_nothing : b.rspStatus ≠ 0 → b.rspConsumed = 0 ∧ b.rspNvalues = 0 ∧ b.rspNbytes = 0
  /-- The units never run together (60_exceptions.md R166). -/
  encActive_in_enc : b.encActive = true → b.phase = .enc
  decActive_in_dec : b.decActive = true → b.phase = .dec
  /-- The opcode that selected the unit (10_state.md R40). -/
  enc_opcode : b.phase = .enc → b.cmdOp.toNat ≤ 1
  dec_opcode : b.phase = .dec → 2 ≤ b.cmdOp.toNat ∧ b.cmdOp.toNat ≤ 4
  /-- The encoder encodes no more values than the command asks for (20_memory.md R54). -/
  enc_count : b.phase = .enc → b.seqK.toNat + b.encActive.toNat ≤ b.encodeCount.toNat
  /-- The bytes written and those the value in flight will still need are at most 10 a value, so `NBYTES` cannot wrap
  (00_scope.md R9, R11). -/
  enc_bytes : b.phase = .enc →
    b.nbytes.toNat + (if b.encActive then (encodeLoop Config.maxEncLen b.encRem).length else 0)
      ≤ Config.maxEncLen * (b.seqK.toNat + b.encActive.toNat)
  /-- The decoder never passes the end of its input (20_memory.md R53, 41_decoder.md R133). -/
  dec_pos : b.phase = .dec → b.pos.toNat ≤ b.cmdLen.toNat
  /-- Each value, the one in flight included, has consumed at least one byte (41_decoder.md R121). -/
  dec_values : b.phase = .dec → b.seqK.toNat + b.decActive.toNat ≤ b.pos.toNat
  /-- DEC_ONE and DEC_FIXED decode no more values than asked for (20_memory.md R51). -/
  dec_one_count : b.phase = .dec → b.cmdOp = 2 → b.seqK.toNat + b.decActive.toNat ≤ 1
  dec_fixed_count : b.phase = .dec → b.cmdOp = 3 → b.seqK.toNat + b.decActive.toNat ≤ b.cmdCount.toNat
  /-- `DEC_IDX` saturates at 10 (10_state.md R27) and counts the bytes of the value in flight. -/
  decIdx_saturates : b.decIdx.toNat ≤ Config.idxSaturation
  decIdx_in_flight : b.decActive = true → 1 ≤ b.decIdx.toNat ∧ b.decIdx.toNat ≤ b.pos.toNat
  /-- No value in flight: the accumulator and the index are 0 while the decoder runs (41_decoder.md R130). -/
  dec_between_values : b.phase = .dec → b.decActive = false → b.decAcc = 0 ∧ b.decIdx = 0

/-- The state in a run: the buffers in canonical form, and the registers as `Block.Inv` says. -/
structure State.Inv (s : State) : Prop where
  buffers : s.buf.wf = true
  block   : s.block.Inv

/-- The states of modelled runs (70_reset_and_hazards.md R171). -/
inductive Reachable : State → Prop where
  | reset : Reachable State.reset
  | step {s s' : State} : Reachable s → Sys2Proof.Machine.step s = .next s' → Reachable s'
  | host {s : State} (m : HostMove) : Reachable s → m.allowed s = true → Reachable (m.apply s)

end Sys2Proof.Machine
end

