-- ==== Sys2Proof/Certificates/Slice0/Obligations.lean ====
section
/-! DEFINITION. The statements for the provers, and the words they are written in. A statement's docstring names
the rule it formalises, or the inference of the spec or the choice of the model it rests on. -/

namespace Sys2Proof.Claims

open Sys2Proof.Machine

/-- `bit_length(v)` (30_encoding.md R73). -/
def bitLength (v : U64) : Nat := if v = 0 then 0 else Nat.log2 v.toNat + 1

/-- An encoded value: every byte but the last has bit 7 set, the last has it clear (30_encoding.md R71). -/
def Framed (e : List Byte) : Prop :=
  ∃ front last, e = front ++ [last] ∧ (∀ b ∈ front, b.getLsbD 7 = true) ∧ last.getLsbD 7 = false

/-- `Σ_j b_j[6:0] × 2^(7j)` (30_encoding.md R72, 41_decoder.md R122). -/
def carried (e : List Byte) : Nat := (e.zipIdx.map fun p => (p.1.toNat % 2 ^ 7) * 2 ^ (7 * p.2)).sum

/-- The OR of the groups, the one at byte index `i` shifted left by `7i` in 64 bits (41_decoder.md R120, R124). -/
def contributed (e : List Byte) : U64 :=
  e.zipIdx.foldl (fun acc p => acc ||| shl64 ((p.1.extractLsb' 0 7).setWidth 64) (7 * p.2)) 0

/-- The first `n` elements of a buffer, in order (20_memory.md R56). -/
def firstOf {w : Nat} (m : Memory w) (n : Nat) : List (BitVec w) := (List.range n).map fun k => m.read k

/-- The buffer holds `vs` from offset 0 on, and every other element is as before (20_memory.md R55). -/
def HoldsFrom {w : Nat} (before after : Memory w) (vs : List (BitVec w)) : Prop :=
  ∀ k, after.read k = (vs[k]?).getD (before.read k)

/-- The block waits in `RSP` with the response `(status, consumed, nvalues, nbytes)` (30_encoding.md R87). -/
def Responds (t : State) (status consumed nvalues nbytes : Nat) : Prop :=
  t.block.phase = .rsp ∧ t.block.rspStatus.toNat = status ∧ t.block.rspConsumed.toNat = consumed ∧
    t.block.rspNvalues.toNat = nvalues ∧ t.block.rspNbytes.toNat = nbytes

/-- No buffer holds anything else than before. -/
def SameContents (s t : State) : Prop :=
  (∀ k, t.buf.inp.read k = s.buf.inp.read k) ∧ (∀ k, t.buf.vin.read k = s.buf.vin.read k) ∧
    (∀ k, t.buf.out.read k = s.buf.out.read k) ∧ (∀ k, t.buf.vout.read k = s.buf.vout.read k)

/-- The host offers the word `w`, and `rest` after it, to an idle block that is out of reset. -/
def Offers (s : State) (w : CmdWord) (rest : List CmdWord) : Prop :=
  s.chan.rst = false ∧ s.block.phase = .idle ∧ s.chan.offered = w :: rest

/-- The steps an encode command takes after its accept (40_encoder.md R108). -/
def encodeSteps (vals : List U64) : Nat := (vals.map fun v => 1 + (encodeOne v).length).sum + 1

/-- The steps a decode command takes after its accept (41_decoder.md R133), from the response it gives. -/
def decodeSteps (t : State) : Nat :=
  if t.block.rspStatus = 0 then t.block.rspConsumed.toNat + 1 else t.block.cmdLen.toNat + 1

/-- The number of values of an encode command (20_memory.md R56); a decode command reads no VIN element. -/
def encodeValues : Instr → Nat
  | .encOne _ _ => 1
  | .encMany _ count => count.toNat
  | .decOne _ _ => 0
  | .decFixed _ _ => 0
  | .decAll _ _ => 0

/-- The input length of a decode command; an encode command reads no IN element (20_memory.md R51). -/
def inputLength : Instr → Nat
  | .encOne _ _ => 0
  | .encMany _ _ => 0
  | .decOne len _ => len.toNat
  | .decFixed len _ => len.toNat
  | .decAll len _ => len.toNat

end Sys2Proof.Claims

open Sys2Proof Sys2Proof.Machine Sys2Proof.Claims

/-! ### Encodings -/

/-- Decoding the word of a command gives the command back, for every command and every operand. It rests on
30_encoding.md, section 2; it says no field is dropped. -/
def Obligations.DecodeOfEncode : Prop :=
  ∀ i : Instr, i.wellFormed = true → decode (encode i) = .ok i

/-- The word of the command a word decodes to is that word: no two words decode to one command. It rests on
30_encoding.md, section 2. -/
def Obligations.EncodeOfDecode : Prop :=
  ∀ (w : CmdWord) (i : Instr), decode w = .ok i → encode i = w ∧ i.wellFormed = true

/-- A word is a command exactly when its opcode is at most 4 and its reserved field is 0; every other word is
rejected (10_state.md R36). -/
def Obligations.DecoderAcceptsExactlyLegalWords : Prop :=
  ∀ w : CmdWord,
    ((∃ i, decode w = .ok i) ↔ (w.extractLsb' 0 3).toNat ≤ 4 ∧ w.extractLsb' 3 5 = 0) ∧
    ((∃ e, decode w = .error e) ↔ 5 ≤ (w.extractLsb' 0 3).toNat ∨ w.extractLsb' 3 5 ≠ 0)

/-- The low byte selects the command, and the operand fields are the two 32-bit fields above it (30_encoding.md R80
to R84; the operand fields as R77 places them). -/
def Obligations.LowByteSelectsCommand : Prop :=
  ∀ w : CmdWord,
    (w.extractLsb' 0 8 = 0x00#8 ↔ decode w = .ok (.encOne (w.extractLsb' 8 32) (w.extractLsb' 40 32))) ∧
    (w.extractLsb' 0 8 = 0x01#8 ↔ decode w = .ok (.encMany (w.extractLsb' 8 32) (w.extractLsb' 40 32))) ∧
    (w.extractLsb' 0 8 = 0x02#8 ↔ decode w = .ok (.decOne (w.extractLsb' 8 32) (w.extractLsb' 40 32))) ∧
    (w.extractLsb' 0 8 = 0x03#8 ↔ decode w = .ok (.decFixed (w.extractLsb' 8 32) (w.extractLsb' 40 32))) ∧
    (w.extractLsb' 0 8 = 0x04#8 ↔ decode w = .ok (.decAll (w.extractLsb' 8 32) (w.extractLsb' 40 32)))

/-- A few command words of 95_test_vectors.md, sections 2 and 3, decode to the commands they stand for. -/
def Obligations.SampleWordsDecode : Prop :=
  decode 0x000000070000000900#72 = .ok (.encOne 9 7) ∧
  decode 0x000000040000000001#72 = .ok (.encMany 0 4) ∧
  decode 0x000000000000000502#72 = .ok (.decOne 5 0) ∧
  decode 0x000000030000000403#72 = .ok (.decFixed 4 3) ∧
  decode 0x000000000000001604#72 = .ok (.decAll 22 0) ∧
  decode 0x000000000000000005#72 = .error (.reservedOpcode 5) ∧
  decode 0x0000000000000003FA#72 = .error (.reservedBits 0x1F)

/-- The response word has its five fields where 30_encoding.md R86 puts them, each from its response register, the
reserved one 0. -/
def Obligations.ResponseWordFields : Prop :=
  (∀ b : Block,
    b.rspWord.extractLsb' 0 2 = b.rspStatus ∧ b.rspWord.extractLsb' 2 6 = 0 ∧
    b.rspWord.extractLsb' 8 32 = b.rspConsumed ∧ b.rspWord.extractLsb' 40 32 = b.rspNvalues ∧
    b.rspWord.extractLsb' 72 36 = b.rspNbytes) ∧
  (∀ (st : BitVec 2) (c n : BitVec 32) (nb : BitVec 36),
    (pack st c n nb).toNat = st.toNat + c.toNat * 2 ^ 8 + n.toNat * 2 ^ 40 + nb.toNat * 2 ^ 72)

/-! ### The wire format and the two functions -/

/-- Byte `j` of an encoded value carries bits `7j+6 .. 7j` of the value in its bits 6:0, and its bit 7 says whether
more bytes follow (20_memory.md R57). -/
def Obligations.EncodedByteCarriesItsGroup : Prop :=
  ∀ (v : U64) (j : Nat) (h : j < (encodeOne v).length),
    ((encodeOne v)[j]).extractLsb' 0 7 = v.extractLsb' (7 * j) 7 ∧
    (((encodeOne v)[j]).getLsbD 7 = true ↔ j + 1 < (encodeOne v).length)

/-- The encoding is minimal, at most ten bytes, framed, and ends in a nonzero byte unless the value is 0. It rests on
the length, framing and canonical properties of 40_encoder.md, section 1. -/
def Obligations.EncodingIsMinimalAndCanonical : Prop :=
  ∀ v : U64,
    (encodeOne v).length = max 1 ((bitLength v + 6) / 7) ∧
    1 ≤ (encodeOne v).length ∧ (encodeOne v).length ≤ 10 ∧
    Framed (encodeOne v) ∧
    (v ≠ 0 → ∀ b, (encodeOne v).getLast? = some b → b ≠ 0) ∧
    (v = 0 → encodeOne v = [0x00])

/-- Distinct values have distinct encodings. It rests on 40_encoder.md, section 1, where the spec marks it as its own
inference ("Injective: distinct values have distinct encodings"). -/
def Obligations.EncodingIsInjective : Prop :=
  ∀ v v' : U64, encodeOne v = encodeOne v' → v = v'

/-- `shl64(a, n) = (a × 2^n) mod 2^64`, zero for `n ≥ 64`; a group at index 8 or below keeps all its bits, at index 9
only its bit 0, at index 10 or above none; over-long input does not fail but decodes to the OR of its groups, the one
at index `i` shifted by `7i`; and no command writes the status code reserved for Overflow. It rests on 41_decoder.md,
section 1 (overflow), and 00_scope.md, section 5 (`shl64`); that the OR is the sum is `DecodeOfFramedSequence`. -/
def Obligations.OverlongInputTruncatesSilently : Prop :=
  (∀ (a : U64) (n : Nat), (shl64 a n).toNat = a.toNat * 2 ^ n % 2 ^ 64 ∧ (64 ≤ n → shl64 a n = 0)) ∧
  (∀ (g : U64) (i : Nat), g.toNat < 2 ^ 7 →
    (i ≤ 8 → (shl64 g (7 * i)).toNat = g.toNat * 2 ^ (7 * i)) ∧
    (i = 9 → (shl64 g (7 * i)).toNat = (g.toNat % 2) * 2 ^ 63) ∧
    (10 ≤ i → shl64 g (7 * i) = 0)) ∧
  (∀ e t : List Byte, Framed e → decodeOne (e ++ t) = .ok (contributed e, t)) ∧
  (∀ (i : Instr) (s t : State), exec i s = .next t → t.block.rspStatus ≠ 2)

/-- A framed sequence, canonical or not, followed by anything decodes to the value its groups carry, mod 2^64, and
leaves what follows. It rests on 41_decoder.md, sections 1 and 4 (the value sum and the trailing-data law, which the
spec marks as its own inferences). -/
def Obligations.DecodeOfFramedSequence : Prop :=
  ∀ e t : List Byte, Framed e → decodeOne (e ++ t) = .ok (BitVec.ofNat 64 (carried e), t)

/-- A successful decode consumes exactly the prefix up to the first byte with bit 7 clear, and depends on no byte
after it (41_decoder.md R121). -/
def Obligations.DecodeConsumesMinimalPrefix : Prop :=
  ∀ (data rest : List Byte) (v : U64), decodeOne data = .ok (v, rest) →
    ∃ (front : List Byte) (last : Byte), data = front ++ last :: rest ∧
      (∀ b ∈ front, b.getLsbD 7 = true) ∧ last.getLsbD 7 = false ∧
      rest = data.drop (front.length + 1) ∧
      (∀ rest', decodeOne (front ++ last :: rest') = .ok (v, rest')) ∧
      (Framed data → rest = [])

/-- Decoding fails, with UnexpectedEndOfInput, exactly when no byte has bit 7 clear (41_decoder.md R123). -/
def Obligations.DecodeFailsExactlyWithoutTerminalByte : Prop :=
  ∀ data : List Byte,
    (decodeOne data = .error .unexpectedEndOfInput ↔ ∀ b ∈ data, b.getLsbD 7 = true) ∧
    decodeOne data ≠ .error .illegalCommand

/-- A shortened encoding, the empty one included, fails with UnexpectedEndOfInput. It rests on 41_decoder.md, section
4, the law "Failure on truncation". -/
def Obligations.TruncatedEncodingFails : Prop :=
  ∀ (v : U64) (k : Nat), k < (encodeOne v).length →
    decodeOne ((encodeOne v).take k) = .error .unexpectedEndOfInput

/-- Decoding an encoded value gives it back with nothing left, and so do the commands: DEC_ONE of the bytes ENC_ONE
wrote. It rests on 41_decoder.md, section 4, the round-trip law, whose command form the spec marks as its own
inference. -/
def Obligations.RoundTripOfOneValue : Prop :=
  (∀ v : U64, decodeOne (encodeOne v) = .ok (v, [])) ∧
  (∀ (len count len' count' : BitVec 32) (s s' t : State),
    s.buf.wf = true → s'.buf.wf = true → exec (.encOne len count) s = .next t →
    (∀ k, k < t.block.rspNbytes.toNat → s'.buf.inp.read k = t.buf.out.read k) →
    len'.toNat = t.block.rspNbytes.toNat →
    ∃ u, exec (.decOne len' count') s' = .next u ∧ Responds u 0 t.block.rspNbytes.toNat 1 0 ∧
      u.buf.vout.read 0 = s.buf.vin.read 0)

/-- Decoding an encoded batch until exhausted gives the batch back (41_decoder.md R136). -/
def Obligations.RoundTripOfBatch : Prop :=
  ∀ vs : List U64, decodeAll (encodeMany vs) = .ok vs

/-- The same in commands: DEC_ALL of the bytes ENC_MANY wrote gives VOUT the values of VIN. It rests on the batch
round-trip law of 41_decoder.md, section 4, and on the meanings of the two commands. -/
def Obligations.RoundTripOfBatchThroughBuffers : Prop :=
  ∀ (len count len' count' : BitVec 32) (s s' t : State),
    s.buf.wf = true → s'.buf.wf = true → exec (.encMany len count) s = .next t →
    (∀ k, k < t.block.rspNbytes.toNat → s'.buf.inp.read k = t.buf.out.read k) →
    len'.toNat = t.block.rspNbytes.toNat →
    ∃ u, exec (.decAll len' count') s' = .next u ∧
      Responds u 0 t.block.rspNbytes.toNat count.toNat 0 ∧
      ∀ k, k < count.toNat → u.buf.vout.read k = s.buf.vin.read k

/-! ### The five commands -/

/-- ENC_ONE completes from every state: OUT holds the encoding of VIN[0] from offset 0 on and nothing else of it
changes, the response is `(0, 0, 1, n)`; with the corner cases of the rule (40_encoder.md R102). -/
def Obligations.EncOneEncodesOneValue : Prop :=
  (∀ w : CmdWord, w.extractLsb' 0 8 = 0x00#8 →
    decode w = .ok (.encOne (w.extractLsb' 8 32) (w.extractLsb' 40 32))) ∧
  (∀ (len count : BitVec 32) (s : State), s.buf.wf = true →
    ∃ t, exec (.encOne len count) s = .next t ∧
      HoldsFrom s.buf.out t.buf.out (encodeOne (s.buf.vin.read 0)) ∧
      Responds t 0 0 1 (encodeOne (s.buf.vin.read 0)).length ∧
      1 ≤ t.block.rspNbytes.toNat ∧ t.block.rspNbytes.toNat ≤ 10) ∧
  encodeOne 0 = [0x00] ∧ encodeOne 127 = [0x7F] ∧ encodeOne 128 = [0x80, 0x01] ∧
  encodeOne 300 = [0xAC, 0x02] ∧
  encodeOne 0xFFFFFFFFFFFFFFFF#64 = List.replicate 9 0xFF#8 ++ [0x01]

/-- ENC_MANY completes from every state: OUT holds the concatenation, in index order, of the encodings of VIN[0] to
VIN[COUNT-1] and nothing else of it changes, the response is `(0, 0, COUNT, bytes written)`, the byte count is exact
and lies between COUNT and 10 × COUNT; `COUNT = 0` writes nothing. It rests on 40_encoder.md, section 2; the corner
case `COUNT = 1` is `EncManyOfOneIsEncOne`. -/
def Obligations.EncManyEncodesBatch : Prop :=
  ∀ (len count : BitVec 32) (s : State), s.buf.wf = true →
    ∃ t, exec (.encMany len count) s = .next t ∧
      (∀ bytes, bytes = ((firstOf s.buf.vin count.toNat).map encodeOne).flatten →
        HoldsFrom s.buf.out t.buf.out bytes ∧ Responds t 0 0 count.toNat bytes.length) ∧
      count.toNat ≤ t.block.rspNbytes.toNat ∧ t.block.rspNbytes.toNat ≤ 10 * count.toNat ∧
      (count = 0 → SameContents s t ∧ Responds t 0 0 0 0)

/-- ENC_MANY of one value and ENC_ONE write the same bytes and give the same response. It rests on 40_encoder.md,
section 2, where the spec marks it as its own inference. -/
def Obligations.EncManyOfOneIsEncOne : Prop :=
  ∀ (len len' count' : BitVec 32) (s t t' : State),
    exec (.encMany len 1) s = .next t → exec (.encOne len' count') s = .next t' →
    t.buf = t'.buf ∧ t.block.rspWord = t'.block.rspWord

/-- DEC_ONE completes from every state. When the input has a terminal byte, VOUT[0] is the value, nothing else of
VOUT changes, and the response is `(0, c, 1, 0)` with `c` the bytes consumed; otherwise VOUT is as before and the
response is `(1, 0, 0, 0)`; with the example of the rule (41_decoder.md R125). -/
def Obligations.DecOneDecodesOneValue : Prop :=
  (∀ w : CmdWord, w.extractLsb' 0 8 = 0x02#8 →
    decode w = .ok (.decOne (w.extractLsb' 8 32) (w.extractLsb' 40 32))) ∧
  (∀ (len count : BitVec 32) (s : State), s.buf.wf = true →
    (∀ v rest, decodeOne (firstOf s.buf.inp len.toNat) = .ok (v, rest) →
      ∃ t, exec (.decOne len count) s = .next t ∧ HoldsFrom s.buf.vout t.buf.vout [v] ∧
        rest.length < len.toNat ∧ Responds t 0 (len.toNat - rest.length) 1 0) ∧
    (decodeOne (firstOf s.buf.inp len.toNat) = .error .unexpectedEndOfInput →
      ∃ t, exec (.decOne len count) s = .next t ∧ SameContents s t ∧ Responds t 1 0 0 0) ∧
    (len = 0 → decodeOne (firstOf s.buf.inp len.toNat) = .error .unexpectedEndOfInput) ∧
    decodeOne (firstOf s.buf.inp len.toNat) ≠ .error .illegalCommand) ∧
  decodeOne [0x00] = .ok (0, []) ∧ decodeOne [0x80, 0x00] = .ok (0, []) ∧
  decodeOne [0xAC, 0x02, 0x7F] = .ok (300, [0x7F])

/-- DEC_FIXED completes from every state. When the input holds COUNT values, they stand in VOUT in order from index 0
on and the response is `(0, c, COUNT, 0)`; otherwise VOUT holds the values decoded before the first failure and the
response is `(1, 0, 0, 0)`; COUNT 0 succeeds on every input. It rests on 41_decoder.md, section 2 (DEC_FIXED and VOUT
after a failure), the COUNT 0 clause on what the spec marks there as its own inference; the decode function is the
spec's own. -/
def Obligations.DecFixedDecodesCountValues : Prop :=
  (∀ w : CmdWord, w.extractLsb' 0 8 = 0x03#8 →
    decode w = .ok (.decFixed (w.extractLsb' 8 32) (w.extractLsb' 40 32))) ∧
  (∀ (len count : BitVec 32) (s : State), s.buf.wf = true →
    (∀ vs rest, decodeFixed (firstOf s.buf.inp len.toNat) count.toNat = .ok (vs, rest) →
      ∃ t, exec (.decFixed len count) s = .next t ∧ HoldsFrom s.buf.vout t.buf.vout vs ∧
        vs.length = count.toNat ∧ Responds t 0 (len.toNat - rest.length) count.toNat 0) ∧
    (decodeFixed (firstOf s.buf.inp len.toNat) count.toNat = .error .unexpectedEndOfInput →
      ∃ t vsP cut, exec (.decFixed len count) s = .next t ∧
        vsP.length < count.toNat ∧
        decodeFixed (firstOf s.buf.inp len.toNat) vsP.length = .ok (vsP, cut) ∧
        decodeOne cut = .error .unexpectedEndOfInput ∧
        HoldsFrom s.buf.vout t.buf.vout vsP ∧ Responds t 1 0 0 0) ∧
    (count = 0 → decodeFixed (firstOf s.buf.inp len.toNat) count.toNat
      = .ok ([], firstOf s.buf.inp len.toNat)) ∧
    decodeFixed (firstOf s.buf.inp len.toNat) count.toNat ≠ .error .illegalCommand)

/-- The recursion of 41_decoder.md R126 is that of repeated decode-one calls: N values are one value and then N - 1
from the rest, and the first failure ends it. -/
def Obligations.DecodeFixedThreadsTheRest : Prop :=
  ∀ (data : List Byte) (m n : Nat) (vs : List U64) (rest : List Byte),
    decodeFixed data m = .ok (vs, rest) →
    (∀ vs' rest', decodeFixed rest n = .ok (vs', rest') → decodeFixed data (m + n) = .ok (vs ++ vs', rest')) ∧
    (∀ e, decodeFixed rest n = .error e → decodeFixed data (m + n) = .error e)

/-- DEC_ALL completes from every state. When its input is used up by complete values, they stand in VOUT in order
and the response is `(0, LEN, number of values, 0)`; when a value is cut short, VOUT holds the values before it and
the response is `(1, 0, 0, 0)`; an empty input succeeds with no value; one of the two holds of every input
(41_decoder.md R127, the partial writes as R128 gives them). -/
def Obligations.DecAllDecodesWholeInput : Prop :=
  (∀ w : CmdWord, w.extractLsb' 0 8 = 0x04#8 →
    decode w = .ok (.decAll (w.extractLsb' 8 32) (w.extractLsb' 40 32))) ∧
  (∀ (len count : BitVec 32) (s : State), s.buf.wf = true →
    (∀ vs, decodeFixed (firstOf s.buf.inp len.toNat) vs.length = .ok (vs, []) →
      ∃ t, exec (.decAll len count) s = .next t ∧ HoldsFrom s.buf.vout t.buf.vout vs ∧
        vs.length ≤ len.toNat ∧ Responds t 0 len.toNat vs.length 0) ∧
    (∀ vsP cut, decodeFixed (firstOf s.buf.inp len.toNat) vsP.length = .ok (vsP, cut) → cut ≠ [] →
      decodeOne cut = .error .unexpectedEndOfInput →
      ∃ t, exec (.decAll len count) s = .next t ∧
        HoldsFrom s.buf.vout t.buf.vout vsP ∧ Responds t 1 0 0 0) ∧
    (∃ vs cut, decodeFixed (firstOf s.buf.inp len.toNat) vs.length = .ok (vs, cut) ∧
      (cut = [] ∨ decodeOne cut = .error .unexpectedEndOfInput)) ∧
    (len = 0 → ∃ t, exec (.decAll len count) s = .next t ∧ SameContents s t ∧ Responds t 0 0 0 0))

/-- The rest after a successful decode command, the input from `RSP_CONSUMED` on, is what decoding left over, and
the command reads none of it: the same command on an input that agrees before the rest decodes the same values and
consumes as much. It rests on 41_decoder.md, sections 1 and 2 (the rest), and 20_memory.md, section 1; that the hidden
registers agree too rests on log 5. -/
def Obligations.RestIsTheUnreadInput : Prop :=
  ∀ (len count : BitVec 32) (s t : State) (i : Instr) (vs : List U64) (rest : List Byte),
    ((i = .decOne len count ∧ decodeFixed (firstOf s.buf.inp len.toNat) 1 = .ok (vs, rest)) ∨
      (i = .decFixed len count ∧ decodeFixed (firstOf s.buf.inp len.toNat) count.toNat = .ok (vs, rest)) ∨
      (i = .decAll len count ∧ rest = [] ∧
        decodeFixed (firstOf s.buf.inp len.toNat) vs.length = .ok (vs, rest))) →
    exec i s = .next t →
    t.rest = rest ∧
    t.block.rspConsumed.toNat + rest.length = len.toNat ∧
    firstOf s.buf.inp len.toNat = firstOf s.buf.inp t.block.rspConsumed.toNat ++ rest ∧
    ∀ s' t' : State, s'.buf.vout = s.buf.vout →
      (∀ k, k < t.block.rspConsumed.toNat → s'.buf.inp.read k = s.buf.inp.read k) →
      exec i s' = .next t' → t'.block = t.block ∧ t'.buf.vout = t.buf.vout

/-- The frame of ENC_ONE and ENC_MANY: OUT changes at no offset beyond the encoding the command's own meaning
computes, the other buffers, the channels and the level do not change at all, and every register of the block is as
`Accept` left it but for `SEQ_K`, `NBYTES`, `PHASE` and the response registers. The clauses about buffers rest on
20_memory.md, sections 1 and 3; those about the hidden registers after a whole command (`SEQ_K`, `POS`, `NBYTES`, the
encoder's and the decoder's) are the model's deduction (log 5), and those about the channels and the level are about
its own fields (log 3, log 4). -/
def Obligations.EncodeCommandFrame : Prop :=
  ∀ (len count : BitVec 32) (s t : State) (i : Instr) (m : Nat),
    ((i = .encOne len count ∧ m = 1) ∨ (i = .encMany len count ∧ m = count.toNat)) →
    exec i s = .next t →
    (∀ k, (encodeMany (s.buf.values m)).length ≤ k → t.buf.out.read k = s.buf.out.read k) ∧
    t.buf.inp = s.buf.inp ∧ t.buf.vin = s.buf.vin ∧ t.buf.vout = s.buf.vout ∧
    t.chan = s.chan ∧ t.level = s.level ∧
    t.block.cmdOp = i.opcode ∧ t.block.cmdLen = len ∧ t.block.cmdCount = count ∧
    t.block.seqK.toNat = m ∧ t.block.nbytes = t.block.rspNbytes ∧ t.block.pos = 0 ∧
    t.block.encActive = false ∧ t.block.encRem = 0 ∧
    t.block.decActive = false ∧ t.block.decAcc = 0 ∧ t.block.decIdx = 0

/-- The frame of DEC_ONE, DEC_FIXED and DEC_ALL: VOUT changes at no index beyond the values the command's own meaning
writes (those that at most `n` decode-one calls give before one fails, `n` being 1, COUNT or LEN), the other buffers,
the channels and the level do not change at all, `SEQ_K` counts those values, and the encoder's registers and `NBYTES`
are as `Accept` left them. The clauses about buffers rest on 20_memory.md, sections 1 and 3, and 41_decoder.md, section
2; those about the hidden registers after a whole command (`SEQ_K`, `POS`, `NBYTES`, the encoder's, `DEC_ACTIVE`) are
the model's deduction (log 5), and those about the channels and the level are about its own fields (log 3, log 4). -/
def Obligations.DecodeCommandFrame : Prop :=
  ∀ (len count : BitVec 32) (s t : State) (i : Instr) (n : Nat),
    ((i = .decOne len count ∧ n = 1) ∨ (i = .decFixed len count ∧ n = count.toNat) ∨
      (i = .decAll len count ∧ n = len.toNat)) →
    exec i s = .next t →
    (∀ k, (decodedBefore (s.buf.data len) n).1.length ≤ k → t.buf.vout.read k = s.buf.vout.read k) ∧
    t.buf.inp = s.buf.inp ∧ t.buf.vin = s.buf.vin ∧ t.buf.out = s.buf.out ∧
    t.chan = s.chan ∧ t.level = s.level ∧
    t.block.cmdOp = i.opcode ∧ t.block.cmdLen = len ∧ t.block.cmdCount = count ∧
    t.block.seqK.toNat = (decodedBefore (s.buf.data len) n).1.length ∧
    t.block.pos.toNat ≤ len.toNat ∧ t.block.seqK.toNat ≤ t.block.pos.toNat ∧
    t.block.nbytes = 0 ∧ t.block.encActive = false ∧ t.block.encRem = 0 ∧ t.block.decActive = false

/-- The two operand fields are latched unscaled by every command, and a field a command does not use changes nothing
but its own latch. It rests on 30_encoding.md, section 2; the other hidden registers are those of log 5. -/
def Obligations.UnusedFieldsChangeNothing : Prop :=
  (∀ (i : Instr) (s t : State), exec i s = .next t →
    t.block.cmdLen.toNat = i.len.toNat ∧ t.block.cmdCount.toNat = i.count.toNat) ∧
  (∀ (l c l' c' : BitVec 32) (s t : State), exec (.encOne l c) s = .next t →
    exec (.encOne l' c') s = .next { t with block := { t.block with cmdLen := l', cmdCount := c' } }) ∧
  (∀ (l c l' : BitVec 32) (s t : State), exec (.encMany l c) s = .next t →
    exec (.encMany l' c) s = .next { t with block := { t.block with cmdLen := l' } }) ∧
  (∀ (l c c' : BitVec 32) (s t : State), exec (.decOne l c) s = .next t →
    exec (.decOne l c') s = .next { t with block := { t.block with cmdCount := c' } }) ∧
  (∀ (l c c' : BitVec 32) (s t : State), exec (.decAll l c) s = .next t →
    exec (.decAll l c') s = .next { t with block := { t.block with cmdCount := c' } })

/-- The result of a command depends on its word and on the input elements it may read, on nothing an earlier command
left: from two states that agree on those elements, every register, every OUT byte and every VOUT value the command
writes is the same. It rests on 10_state.md, section 5, where the spec marks "Independence of commands" as its own
inference, and on the determinism law of 41_decoder.md, section 4; the hidden registers are those of log 5. -/
def Obligations.ResultDependsOnlyOnInput : Prop :=
  ∀ (i : Instr) (s s' t t' : State),
    s.buf.wf = true → s'.buf.wf = true →
    (∀ k, k < encodeValues i → s'.buf.vin.read k = s.buf.vin.read k) →
    (∀ k, k < inputLength i → s'.buf.inp.read k = s.buf.inp.read k) →
    exec i s = .next t → exec i s' = .next t' →
    t'.block = t.block ∧ t'.outResult = t.outResult ∧
    (∀ k, k < t.block.nbytes.toNat → t'.buf.out.read k = t.buf.out.read k) ∧
    (2 ≤ i.opcode.toNat → t'.voutResult = t.voutResult ∧
      ∀ k, k < t.block.seqK.toNat → t'.buf.vout.read k = t.buf.vout.read k)

/-! ### One step -/

/-- A step with a legal word offered runs the command it decodes to, the word having left the command channel; what
`popCommand` does is stated too. This is the transaction level of 00_scope.md R15; that a step runs a command at one
of the two levels is the model's choice (log 4). -/
def Obligations.StepRunsDecodedCommand : Prop :=
  ∀ (s : State) (w : CmdWord) (rest : List CmdWord) (i : Instr),
    Offers s w rest → decode w = .ok i → s.level = .transaction →
    step s = exec i s.popCommand ∧
    s.popCommand = { s with chan := { s.chan with offered := rest } }

/-- A word placed for the next step is what the next step runs, whatever the state (log 6, the model's choice). -/
def Obligations.PlacedWordRunsNext : Prop :=
  ∀ (s : State) (nbits w : Nat) (i : Instr), nbits ≤ 72 → decodeTableWord nbits w = some i →
    step (s.withFetchWord nbits w) = exec i (s.withFetchWord nbits w).popCommand ∧
    (s.withFetchWord nbits w).buf = s.buf ∧ (s.withFetchWord nbits w).popCommand.chan.offered = s.chan.offered

/-- `Accept` at the micro-step level: a legal word is latched, the sequencer and unit registers are cleared, `PHASE`
becomes ENC for opcodes 0 and 1 and DEC for 2 to 4, an illegal word raises IllegalCommand in the same step, and no
buffer is read or written (10_state.md R40; that the step is at this level is the premise, log 4). -/
def Obligations.AcceptLatchesTheCommand : Prop :=
  ∀ (s : State) (w : CmdWord) (rest : List CmdWord), Offers s w rest → s.level = .microStep →
    ∃ t, step s = .next t ∧ t.chan = { s.chan with offered := rest } ∧ t.buf = s.buf ∧ t.level = s.level ∧
      t.block.cmdOp = w.extractLsb' 0 3 ∧ t.block.cmdLen = w.extractLsb' 8 32 ∧
      t.block.cmdCount = w.extractLsb' 40 32 ∧
      t.block.seqK = 0 ∧ t.block.pos = 0 ∧ t.block.nbytes = 0 ∧ t.block.encActive = false ∧
      t.block.encRem = 0 ∧ t.block.decActive = false ∧ t.block.decAcc = 0 ∧ t.block.decIdx = 0 ∧
      (((w.extractLsb' 0 3).toNat ≤ 4 ∧ w.extractLsb' 3 5 = 0) →
        t.block.phase = (if (w.extractLsb' 0 3).toNat ≤ 1 then .enc else .dec) ∧
        t.block.rspWord = s.block.rspWord) ∧
      (¬ ((w.extractLsb' 0 3).toNat ≤ 4 ∧ w.extractLsb' 3 5 = 0) → Responds t 3 0 0 0) ∧
      s.ports.inRd = none ∧ s.ports.vinRd = none ∧ s.ports.outWr = none ∧ s.ports.voutWr = none

/-- An illegal word is accepted at either level, touches no buffer, and ends in the same step with the response
`(3, 0, 0, 0)` (60_exceptions.md R152). -/
def Obligations.IllegalCommandIsReported : Prop :=
  ∀ (s : State) (w : CmdWord) (rest : List CmdWord), Offers s w rest →
    (5 ≤ (w.extractLsb' 0 3).toNat ∨ w.extractLsb' 3 5 ≠ 0) →
    ∃ t, step s = .next t ∧ Responds t 3 0 0 0 ∧ t.block.rspWord = 3 ∧ t.buf = s.buf ∧
      t.chan = { s.chan with offered := rest } ∧ t.level = s.level

/-- The response hand-off: the word transfers, `PHASE` becomes IDLE, every other register keeps its value, and the
response is observable no longer; and the response registers keep their values in every step out of reset but one
that ends a command. It rests on 10_state.md, section 5; that the word is appended to `taken` is the model's choice
(log 10). -/
def Obligations.HandOffKeepsResponseRegisters : Prop :=
  (∀ s : State, s.chan.rst = false → s.block.phase = .rsp → s.chan.rspReady = true →
    ∃ t, step s = .next t ∧ t.block = { s.block with phase := .idle } ∧ t.buf = s.buf ∧
      t.chan = { s.chan with taken := s.chan.taken ++ [s.block.rspWord] } ∧ t.level = s.level ∧
      t.ports.rspValid = false) ∧
  (∀ s t : State, s.chan.rst = false → step s = .next t →
    t.block.phase ≠ .rsp ∨ s.block.phase = .rsp →
    t.block.rspStatus = s.block.rspStatus ∧ t.block.rspConsumed = s.block.rspConsumed ∧
      t.block.rspNvalues = s.block.rspNvalues ∧ t.block.rspNbytes = s.block.rspNbytes)

/-- A step that waits changes nothing: IDLE with no command offered, RSP with the response not taken. It rests on
10_state.md, section 5 (the two waiting cases of the step). -/
def Obligations.WaitingChangesNothing : Prop :=
  ∀ s : State, s.chan.rst = false →
    ((s.block.phase = .idle ∧ s.cmdValid = false) ∨ (s.block.phase = .rsp ∧ s.chan.rspReady = false)) →
    ∀ n, run n s = .next s

/-- Reset, held for any number of steps: every register takes its reset value, nothing is transferred, no buffer is
read or written, whatever the state, the offered word and the level (70_reset_and_hazards.md R170 and R173). -/
def Obligations.ResetClearsTheBlock : Prop :=
  ∀ (s : State) (n : Nat), s.chan.rst = true →
    ∃ t, run (n + 1) s = .next t ∧
      t.block.phase = .idle ∧ t.block.cmdOp = 0 ∧ t.block.cmdLen = 0 ∧ t.block.cmdCount = 0 ∧
      t.block.seqK = 0 ∧ t.block.pos = 0 ∧ t.block.nbytes = 0 ∧ t.block.encActive = false ∧
      t.block.encRem = 0 ∧ t.block.decActive = false ∧ t.block.decAcc = 0 ∧ t.block.decIdx = 0 ∧
      t.block.rspStatus = 0 ∧ t.block.rspConsumed = 0 ∧ t.block.rspNvalues = 0 ∧ t.block.rspNbytes = 0 ∧
      t.buf = s.buf ∧ t.chan = s.chan ∧ t.level = s.level ∧
      s.ports.cmdReady = false ∧ s.ports.rspValid = false ∧ s.ports.inRd = none ∧ s.ports.vinRd = none ∧
      s.ports.outWr = none ∧ s.ports.voutWr = none

/-- The reset state: `PHASE = IDLE` and every other register 0, so that once `rst` is 0 the block is ready for a
command and shows no response. It rests on 10_state.md, section 3. -/
def Obligations.ResetStateIsReady : Prop :=
  State.reset.block = Block.reset ∧ Block.reset.phase = .idle ∧
  Block.reset.cmdOp = 0 ∧ Block.reset.cmdLen = 0 ∧ Block.reset.cmdCount = 0 ∧ Block.reset.seqK = 0 ∧
  Block.reset.pos = 0 ∧ Block.reset.nbytes = 0 ∧ Block.reset.encActive = false ∧ Block.reset.encRem = 0 ∧
  Block.reset.decActive = false ∧ Block.reset.decAcc = 0 ∧ Block.reset.decIdx = 0 ∧
  Block.reset.rspStatus = 0 ∧ Block.reset.rspConsumed = 0 ∧ Block.reset.rspNvalues = 0 ∧
  Block.reset.rspNbytes = 0 ∧
  ∀ s : State, s.block = Block.reset → s.chan.rst = false →
    s.ports.cmdReady = true ∧ s.ports.rspValid = false

/-- After any response, an error response too, is taken, the block is idle and runs the next command offered, and no
register of the earlier command shows in what that command leaves in the block. It rests on 60_exceptions.md, section
1; the transaction level is the model's premise (log 4), and the hidden registers are those of log 5. -/
def Obligations.ErrorIsNotSticky : Prop :=
  ∀ (s s' : State) (w : CmdWord) (rest : List CmdWord) (i : Instr),
    s.chan.rst = false → s.block.phase = .rsp → s.chan.rspReady = true → s.level = .transaction →
    s.chan.offered = w :: rest → decode w = .ok i →
    s'.chan = s.chan → s'.buf = s.buf → s'.level = s.level → s'.block.phase = .rsp →
    ∃ t t' u u', step s = .next t ∧ t.block.phase = .idle ∧ t.ports.cmdReady = true ∧ step t = .next u ∧
      step s' = .next t' ∧ step t' = .next u' ∧ u.block.phase = .rsp ∧ u'.block = u.block ∧ u'.buf = u.buf

/-- The port outputs of a step are functions of the state: ready in IDLE, valid in RSP, the packed response, neither
in reset, and a buffer enable only while the encoder or the decoder makes that access (10_state.md R37). -/
def Obligations.PortOutputsFollowPhase : Prop :=
  ∀ s : State,
    (s.chan.rst = true → s.ports.cmdReady = false ∧ s.ports.rspValid = false) ∧
    (s.chan.rst = false →
      (s.ports.cmdReady = true ↔ s.block.phase = .idle) ∧ (s.ports.rspValid = true ↔ s.block.phase = .rsp) ∧
      s.ports.rspWord = some (pack s.block.rspStatus s.block.rspConsumed s.block.rspNvalues s.block.rspNbytes)) ∧
    (s.ports.vinRd ≠ none ↔ s.chan.rst = false ∧ s.block.phase = .enc ∧ s.block.encActive = false ∧
      s.block.seqK ≠ s.block.encodeCount) ∧
    (s.ports.outWr ≠ none ↔ s.chan.rst = false ∧ s.block.phase = .enc ∧ s.block.encActive = true) ∧
    (s.ports.inRd ≠ none ↔ s.chan.rst = false ∧ s.block.phase = .dec ∧ s.block.decodeDone = false ∧
      s.block.pos ≠ s.block.cmdLen) ∧
    (s.ports.voutWr ≠ none ↔ s.ports.inRd ≠ none ∧ (s.buf.inp.read s.block.pos.toNat).getLsbD 7 = false)

/-- The encoder's step while no value is in flight: finish when all are done, else fetch `VIN[SEQ_K]`
(40_encoder.md R104). -/
def Obligations.EncoderFetchesOrFinishes : Prop :=
  ∀ s : State, s.chan.rst = false → s.block.phase = .enc → s.block.encActive = false →
    ∀ m : BitVec 32, m = (if s.block.cmdOp = 0 then 1 else s.block.cmdCount) →
    (s.block.seqK = m →
      step s = .next { s with block := { s.block with
        rspStatus := 0, rspConsumed := 0, rspNvalues := s.block.seqK, rspNbytes := s.block.nbytes
        encActive := false, decActive := false, phase := .rsp } } ∧
      s.ports.vinRd = none ∧ s.ports.outWr = none) ∧
    (s.block.seqK ≠ m →
      step s = .next { s with block := { s.block with
        encRem := s.buf.vin.read s.block.seqK.toNat, encActive := true } } ∧
      s.ports.vinRd = some s.block.seqK ∧ s.ports.outWr = none)

/-- The encoder's step while a value is in flight: one byte to `OUT[NBYTES]`, and the value ends when nothing remains
(40_encoder.md R105). -/
def Obligations.EncoderEmitsOneByte : Prop :=
  ∀ s : State, s.chan.rst = false → s.block.phase = .enc → s.block.encActive = true →
    ∀ (r : U64) (b : Byte), r = s.block.encRem >>> 7 →
    b = ((s.block.encRem.extractLsb' 0 7).setWidth 8 ||| if r ≠ 0 then 0x80#8 else 0x00#8) →
    ∃ t, step s = .next t ∧ t.buf = { s.buf with out := Memory.write s.buf.out s.block.nbytes.toNat b } ∧
      s.ports.outWr = some (s.block.nbytes, b) ∧ t.chan = s.chan ∧ t.level = s.level ∧
      (r = 0 → t.block = { s.block with
        nbytes := s.block.nbytes + 1, encRem := r, encActive := false, seqK := s.block.seqK + 1 }) ∧
      (r ≠ 0 → t.block = { s.block with nbytes := s.block.nbytes + 1, encRem := r })

/-- The decoder's step: (a) done, finish; (b) the input is used up, raise UnexpectedEndOfInput; (c) consume
`IN[POS]`, keeping the value in flight or writing it to `VOUT[SEQ_K]` (41_decoder.md R130). -/
def Obligations.DecoderConsumesOneByte : Prop :=
  ∀ s : State, s.chan.rst = false → s.block.phase = .dec →
    ∀ done : Bool, (done = true ↔ s.block.decActive = false ∧
      ((s.block.cmdOp = 2 ∧ s.block.seqK = 1) ∨ (s.block.cmdOp = 3 ∧ s.block.seqK = s.block.cmdCount) ∨
        (s.block.cmdOp = 4 ∧ s.block.pos = s.block.cmdLen))) →
    (done = true → step s = .next { s with block := { s.block with
      rspStatus := 0, rspConsumed := s.block.pos, rspNvalues := s.block.seqK, rspNbytes := 0
      encActive := false, decActive := false, phase := .rsp } }) ∧
    (done = false → s.block.pos = s.block.cmdLen → step s = .next { s with block := { s.block with
      rspStatus := 1, rspConsumed := 0, rspNvalues := 0, rspNbytes := 0
      encActive := false, decActive := false, phase := .rsp } }) ∧
    (done = false → s.block.pos ≠ s.block.cmdLen →
      ∀ (b : Byte) (acc0 acc : U64) (idx : Nat), b = s.buf.inp.read s.block.pos.toNat →
      acc0 = (if s.block.decActive then s.block.decAcc else 0) →
      idx = (if s.block.decActive then s.block.decIdx.toNat else 0) →
      acc = (if idx ≤ 9 then acc0 ||| shl64 ((b.extractLsb' 0 7).setWidth 64) (7 * idx) else acc0) →
      s.ports.inRd = some s.block.pos ∧
      (b.getLsbD 7 = true → s.ports.voutWr = none ∧
        step s = .next { s with block := { s.block with
          pos := s.block.pos + 1, decAcc := acc, decIdx := BitVec.ofNat 4 (min (idx + 1) 10)
          decActive := true } }) ∧
      (b.getLsbD 7 = false → s.ports.voutWr = some (s.block.seqK, acc) ∧
        step s = .next { s with
          block := { s.block with
            pos := s.block.pos + 1, seqK := s.block.seqK + 1, decActive := false, decAcc := 0, decIdx := 0 }
          buf := { s.buf with vout := Memory.write s.buf.vout s.block.seqK.toNat acc } }))

/-- In a micro-step a buffer changes only by the write its port shows, at the end of the step, and IN and VIN never
change (20_memory.md, section 1; the level is the premise, log 4). -/
def Obligations.BuffersChangeOnlyThroughPorts : Prop :=
  ∀ s t : State, s.level = .microStep → step s = .next t →
    t.buf.inp = s.buf.inp ∧ t.buf.vin = s.buf.vin ∧
    t.buf.out = Memory.applyWrite s.buf.out s.ports.outWr ∧
    t.buf.vout = Memory.applyWrite s.buf.vout s.ports.voutWr ∧
    (s.buf.wf = true → ∀ k, t.buf.out.read k = (match s.ports.outWr with
      | none => s.buf.out.read k
      | some (off, b) => if k = off.toNat then b else s.buf.out.read k)) ∧
    (s.buf.wf = true → ∀ k, t.buf.vout.read k = (match s.ports.voutWr with
      | none => s.buf.vout.read k
      | some (off, v) => if k = off.toNat then v else s.buf.vout.read k))

/-- In a micro-step in which `PHASE` becomes RSP no buffer is written: every write of a command comes strictly before
its response. It rests on 20_memory.md, section 4; the level is the premise (log 4). -/
def Obligations.WritesPrecedeTheResponse : Prop :=
  ∀ s t : State, s.level = .microStep → step s = .next t → s.block.phase ≠ .rsp → t.block.phase = .rsp →
    t.buf = s.buf ∧ s.ports.outWr = none ∧ s.ports.voutWr = none

/-- A response that waits is held: while the host does not take it and does not reset, `rsp_valid` and `rsp_word` stay
(10_state.md, section 2, the handshake). -/
def Obligations.ResponseIsHeld : Prop :=
  ∀ (s t : State) (n : Nat), s.ports.rspValid = true → s.chan.rspReady = false →
    run n s = .next t →
    t.ports.rspValid = true ∧ t.ports.rspWord = s.ports.rspWord

/-- Only the three status codes 0, 1 and 3 are ever written: a step leaves `RSP_STATUS` or writes one of them, code 1
only by a decode command, code 3 only by an illegal word. It rests on 60_exceptions.md, section 1. -/
def Obligations.StatusCodesAreWrittenByTheirCommands : Prop :=
  ∀ s t : State, step s = .next t → t.block.rspStatus ≠ s.block.rspStatus →
    t.block.rspStatus = 0 ∨
    (t.block.rspStatus = 1 ∧ t.block.phase = .rsp ∧
      (s.block.phase = .dec ∨ ∃ w rest i, Offers s w rest ∧ decode w = .ok i ∧ 2 ≤ i.opcode.toNat)) ∨
    (t.block.rspStatus = 3 ∧ t.block.phase = .rsp ∧
      ∃ w rest e, Offers s w rest ∧ decode w = .error e)

/-! ### Runs -/

/-- Agreement of the two levels for the encoder: from the accept step, the micro-step run of ENC_ONE or ENC_MANY
reaches, in exactly `1 + Σ (1 + n_i) + 1` steps, the very state the transaction-level meaning gives. It rests on
40_encoder.md, section 3, where the spec marks agreement and termination as its own inferences, and on the model's
choice of the hidden registers (log 5) and of the levels (log 4). -/
def Obligations.EncoderLevelsAgree : Prop :=
  ∀ (s : State) (w : CmdWord) (rest : List CmdWord) (i : Instr),
    Offers s w rest → s.level = .microStep → decode w = .ok i → i.opcode.toNat ≤ 1 →
    run (1 + encodeSteps (s.buf.values (encodeValues i))) s = exec i s.popCommand

/-- Agreement of the two levels for the decoder: from the accept step, the micro-step run of DEC_ONE, DEC_FIXED or
DEC_ALL reaches the very state the transaction-level meaning gives, in exactly `1 + (c + 1)` steps on success and
`1 + (LEN + 1)` on failure. It rests on 41_decoder.md, section 3, where the spec marks agreement and termination as
its own inferences, and on the model's choices of log 4 and log 5. -/
def Obligations.DecoderLevelsAgree : Prop :=
  ∀ (s t : State) (w : CmdWord) (rest : List CmdWord) (i : Instr),
    Offers s w rest → s.level = .microStep → decode w = .ok i → 2 ≤ i.opcode.toNat →
    exec i s.popCommand = .next t →
    run (1 + decodeSteps t) s = .next t

/-- The invariant holds at reset. It rests on 10_state.md, section 3, and on the model's empty buffers (log 2). -/
def Obligations.ResetSatisfiesInvariant : Prop := State.reset.Inv

/-- The invariant is kept by every step, from every state that meets it: canonical buffers, the legal opcode of the
running unit, counters within the command, no status 2, one unit at most active, `DEC_IDX` at most 10. It rests on
10_state.md, sections 3 and 5, 40_encoder.md, section 3, and 41_decoder.md, section 3. -/
def Obligations.StepKeepsInvariant : Prop :=
  ∀ s t : State, s.Inv → step s = .next t → t.Inv

/-- The invariant is kept by every move of the host that breaks no duty, and so holds of every state a run reaches
(70_reset_and_hazards.md, section 3; the moves are the model's, log 12). -/
def Obligations.ReachableStatesSatisfyInvariant : Prop :=
  (∀ (s : State) (m : HostMove), s.Inv → m.allowed s = true → (m.apply s).Inv) ∧
  ∀ s : State, Reachable s → s.Inv

/-- The decoder reads IN in order, each offset at most once and never at or beyond `CMD_LEN`, and `POS` counts the
bytes read without wrapping. It rests on 20_memory.md, section 1, where the spec marks it as its own inference. -/
def Obligations.DecoderReadsInputInOrder : Prop :=
  ∀ (s t : State) (off : BitVec 32), s.Inv → s.ports.inRd = some off → step s = .next t →
    off = s.block.pos ∧ off.toNat < s.block.cmdLen.toNat ∧ t.block.pos.toNat = off.toNat + 1 ∧
    t.block.phase = .dec ∧ t.block.cmdLen = s.block.cmdLen

/-- No counter of the encoder wraps: the byte it writes goes to an offset below `10 × m` of a command of `m` values,
and `NBYTES` and `SEQ_K` count on exactly. It rests on 00_scope.md, sections 4 and 5 ("every counter is sized so it
cannot wrap"), and 70_reset_and_hazards.md, section 3 (output capacity). -/
def Obligations.EncoderCountersNeverWrap : Prop :=
  ∀ (s t : State) (off : BitVec 36) (b : Byte), s.Inv → s.ports.outWr = some (off, b) → step s = .next t →
    off.toNat < 10 * s.block.encodeCount.toNat ∧ t.block.nbytes.toNat = off.toNat + 1 ∧
    (t.block.encActive = false → t.block.seqK.toNat = s.block.seqK.toNat + 1) ∧
    (t.block.encActive = true → t.block.seqK = s.block.seqK)

/-- A step of one of several instances changes no other instance, and that one as it would alone
(60_exceptions.md, section 3; a system as a list of machines is the model's, log 13). -/
def Obligations.InstancesShareNoState : Prop :=
  ∀ (sys : System) (k : Nat), k < sys.length →
    ∃ sys' s s', sys.stepAt k = .next sys' ∧ sys[k]? = some s ∧ step s = .next s' ∧ sys'[k]? = some s' ∧
      sys'.length = sys.length ∧ ∀ j, j ≠ k → sys'[j]? = sys[j]?
end

