-- ==== Sys2Proof/Laws/Encoding.lean ====
section
/-! SUPPORT. Command words, response words and encoded bytes as numbers: the lemmas that turn their fields into
arithmetic (30_encoding.md R70, R77, R86, 00_scope.md R11). -/

namespace Sys2Proof

theorem CommandFields.opLegal_iff (f : CommandFields) : f.opLegal = true ↔ f.op.toNat ≤ 4 := by
  simp [CommandFields.opLegal]

theorem CommandFields.rsvdLegal_iff (f : CommandFields) : f.rsvdLegal = true ↔ f.rsvd = 0 := by
  simp [CommandFields.rsvdLegal]

/-- The word of four fields as a number: it does not overflow (30_encoding.md R77). -/
theorem joinFields_toNat (f : CommandFields) :
    (joinFields f).toNat
      = f.op.toNat + f.rsvd.toNat * 2 ^ 3 + f.len.toNat * 2 ^ 8 + f.count.toNat * 2 ^ 40 := by
  have h1 := f.op.isLt
  have h2 := f.rsvd.isLt
  have h3 := f.len.isLt
  have h4 := f.count.isLt
  rw [joinFields, BitVec.toNat_ofNat, Nat.mod_eq_of_lt (by omega)]

/-- The low byte of a word is its reserved field over its opcode. -/
theorem lowByte_toNat (w : CmdWord) :
    (w.extractLsb' 0 8).toNat = (rsvdField w).toNat * 8 + (opField w).toNat := by
  simp only [rsvdField, opField, BitVec.extractLsb'_toNat, Nat.shiftRight_eq_div_pow]
  omega

namespace Machine

/-- A response word as a number: it does not overflow (30_encoding.md R86). -/
theorem pack_toNat (st : BitVec 2) (c n : BitVec 32) (nb : BitVec 36) :
    (pack st c n nb).toNat = st.toNat + c.toNat * 2 ^ 8 + n.toNat * 2 ^ 40 + nb.toNat * 2 ^ 72 := by
  have h1 := st.isLt
  have h2 := c.isLt
  have h3 := n.isLt
  have h4 := nb.isLt
  rw [pack, BitVec.toNat_ofNat, Nat.mod_eq_of_lt (by omega)]

/-- The group of a byte as a number. -/
theorem groupOf_toNat (b : Byte) : (groupOf b).toNat = b.toNat % 2 ^ 7 := by
  simp [groupOf, BitVec.extractLsb'_toNat]
  omega

/-- The continuation bit of an emitted byte is the one asked for. -/
@[simp] theorem contBitOf_groupByte (r : U64) (more : Bool) : contBitOf (groupByte r more) = more := by
  cases more <;> simp [contBitOf, groupByte]

/-- The group of an emitted byte is the low group of the remaining value. -/
theorem groupByte_group (r : U64) (more : Bool) :
    (groupByte r more).extractLsb' 0 7 = r.extractLsb' 0 7 := by
  ext i hi
  cases more <;> interval_cases i <;> simp [groupByte]

/-- `shl64` as a number. -/
theorem shl64_toNat (a : U64) (n : Nat) : (shl64 a n).toNat = a.toNat * 2 ^ n % 2 ^ 64 := by
  simp [shl64]

end Machine

end Sys2Proof
end

