-- ==== Sys2Proof/Laws/Memory.lean ====
section
/-! SUPPORT. The laws of a buffer: read after write, and that every operation keeps the canonical form
(20_memory.md R52, R62). -/

namespace Sys2Proof.Machine

variable {w : Nat}

@[simp] theorem Memory.read_nil (k : Nat) : Memory.read ([] : Memory w) k = Memory.unlisted w := rfl

theorem Memory.read_cons (a k : Nat) (v : BitVec w) (m : Memory w) :
    Memory.read ((a, v) :: m) k = if a = k then v else Memory.read m k := rfl

/-- The canonical form from an offset on, one listed element at a time. -/
theorem Memory.wfFrom_cons (bound lo a : Nat) (v : BitVec w) (m : Memory w) :
    Memory.wfFrom bound lo ((a, v) :: m) = true ↔
      lo ≤ a ∧ a < bound ∧ v ≠ Memory.unlisted w ∧ Memory.wfFrom bound (a + 1) m = true := by
  simp [Memory.wfFrom, and_assoc]

/-- A canonical list stays canonical from a lower offset. -/
theorem Memory.wfFrom_mono {bound lo lo' : Nat} {m : Memory w} (h : Memory.wfFrom bound lo m = true)
    (hl : lo' ≤ lo) : Memory.wfFrom bound lo' m = true := by
  cases m with
  | nil => rfl
  | cons p m =>
    obtain ⟨a, v⟩ := p
    rw [Memory.wfFrom_cons] at h ⊢
    exact ⟨hl.trans h.1, h.2⟩

/-- Nothing is listed below the offset a canonical list starts from. -/
theorem Memory.read_below {bound lo k : Nat} {m : Memory w} (h : Memory.wfFrom bound lo m = true)
    (hk : k < lo) : Memory.read m k = Memory.unlisted w := by
  induction m generalizing lo with
  | nil => rfl
  | cons p m ih =>
    obtain ⟨a, v⟩ := p
    rw [Memory.wfFrom_cons] at h
    rw [Memory.read_cons, if_neg (by omega)]
    exact ih h.2.2.2 (by omega)

/-- A write leaves every other element alone, in any list. -/
theorem Memory.read_write_other {m : Memory w} {k j : Nat} {v : BitVec w} (h : j ≠ k) :
    Memory.read (Memory.write m k v) j = Memory.read m j := by
  induction m with
  | nil =>
    simp only [Memory.write]
    split
    · rfl
    · rw [Memory.read_cons, if_neg (by omega)]
  | cons p m ih =>
    obtain ⟨a, x⟩ := p
    simp only [Memory.write]
    split
    · split
      · rfl
      · rw [Memory.read_cons, if_neg (by omega)]
    · split
      · subst_vars
        split <;> simp [Memory.read_cons, Ne.symm h]
      · rw [Memory.read_cons, Memory.read_cons, ih]

/-- A read of the written element gives what was written. -/
theorem Memory.read_write_same {bound lo : Nat} {m : Memory w} {k : Nat} {v : BitVec w}
    (h : Memory.wfFrom bound lo m = true) : Memory.read (Memory.write m k v) k = v := by
  induction m generalizing lo with
  | nil =>
    simp only [Memory.write]
    split
    · simp_all
    · rw [Memory.read_cons, if_pos rfl]
  | cons p m ih =>
    obtain ⟨a, x⟩ := p
    have h' := (Memory.wfFrom_cons ..).1 h
    simp only [Memory.write]
    split
    · split
      · rw [Memory.read_cons, if_neg (by omega), Memory.read_below h'.2.2.2 (by omega)]
        exact Eq.symm ‹_›
      · rw [Memory.read_cons, if_pos rfl]
    · split
      · split
        · rw [Memory.read_below h'.2.2.2 (by omega)]
          exact Eq.symm ‹_›
        · rw [Memory.read_cons, if_pos rfl]
      · rw [Memory.read_cons, if_neg (by omega)]
        exact ih h'.2.2.2

/-- A write inside the range keeps the canonical form. -/
theorem Memory.write_wfFrom {bound lo : Nat} {m : Memory w} {k : Nat} {v : BitVec w}
    (h : Memory.wfFrom bound lo m = true) (hl : lo ≤ k) (hk : k < bound) :
    Memory.wfFrom bound lo (Memory.write m k v) = true := by
  induction m generalizing lo with
  | nil =>
    simp only [Memory.write]
    split
    · rfl
    · exact (Memory.wfFrom_cons ..).2 ⟨hl, hk, ‹_›, rfl⟩
  | cons p m ih =>
    obtain ⟨a, x⟩ := p
    have h' := (Memory.wfFrom_cons ..).1 h
    simp only [Memory.write]
    split
    · split
      · exact h
      · exact (Memory.wfFrom_cons ..).2
          ⟨hl, hk, ‹_›, (Memory.wfFrom_cons ..).2 ⟨by omega, h'.2⟩⟩
    · split
      · split
        · exact Memory.wfFrom_mono h'.2.2.2 (by omega)
        · exact (Memory.wfFrom_cons ..).2 ⟨hl, hk, ‹_›, by simp_all⟩
      · exact (Memory.wfFrom_cons ..).2 ⟨h'.1, h'.2.1, h'.2.2.1, ih h'.2.2.2 (by omega)⟩

theorem Memory.write_wf {bound k : Nat} {m : Memory w} {v : BitVec w} (h : Memory.wf bound m = true)
    (hk : k < bound) : Memory.wf bound (Memory.write m k v) = true :=
  Memory.write_wfFrom h (Nat.zero_le k) hk

/-- Consecutive writes inside the range keep the canonical form. -/
theorem Memory.writeSeq_wf {bound k : Nat} {m : Memory w} {vs : List (BitVec w)}
    (h : Memory.wf bound m = true) (hk : k + vs.length ≤ bound) :
    Memory.wf bound (Memory.writeSeq m k vs) = true := by
  induction vs generalizing m k with
  | nil => exact h
  | cons v vs ih =>
    rw [List.length_cons] at hk
    exact ih (Memory.write_wf h (by omega)) (by omega)

/-- Consecutive writes leave every element below their first offset alone. -/
theorem Memory.read_writeSeq_below {m : Memory w} {k j : Nat} {vs : List (BitVec w)} (h : j < k) :
    Memory.read (Memory.writeSeq m k vs) j = Memory.read m j := by
  induction vs generalizing m k with
  | nil => rfl
  | cons v vs ih =>
    rw [Memory.writeSeq, ih (by omega), Memory.read_write_other (by omega)]

/-- Everything consecutive writes do: element `k + i` is the `i`-th one written, every other one is as before. -/
theorem Memory.read_writeSeq {bound k : Nat} {m : Memory w} {vs : List (BitVec w)} (j : Nat)
    (h : Memory.wf bound m = true) (hk : k + vs.length ≤ bound) :
    Memory.read (Memory.writeSeq m k vs) j
      = if j < k then Memory.read m j else (vs[j - k]?).getD (Memory.read m j) := by
  induction vs generalizing m k with
  | nil => simp [Memory.writeSeq]
  | cons v vs ih =>
    rw [List.length_cons] at hk
    rw [Memory.writeSeq, ih (Memory.write_wf h (by omega)) (by omega)]
    rcases Nat.lt_trichotomy j k with hj | hj | hj
    · rw [if_pos (by omega), if_pos hj, Memory.read_write_other (by omega)]
    · subst hj
      rw [if_pos (by omega), if_neg (by omega), Memory.read_write_same h]
      simp
    · rw [if_neg (by omega), if_neg (by omega), Memory.read_write_other (by omega),
        show j - k = (j - (k + 1)) + 1 by omega, List.getElem?_cons_succ]

/-- The elements a sequence of reads gives. -/
@[simp] theorem Memory.readSeq_length (m : Memory w) (n : Nat) : (Memory.readSeq m n).length = n := by
  simp [Memory.readSeq]

theorem Memory.readSeq_getElem (m : Memory w) {n k : Nat} (h : k < (Memory.readSeq m n).length) :
    (Memory.readSeq m n)[k] = Memory.read m k := by
  simp [Memory.readSeq]

/-- A write inside the range of its buffer keeps all four canonical. -/
theorem Buffers.wf_iff (b : Buffers) : b.wf = true ↔
    Memory.wf (2 ^ 32) b.inp = true ∧ Memory.wf (2 ^ 32) b.vin = true ∧ Memory.wf (2 ^ 36) b.out = true ∧
      Memory.wf (2 ^ 32) b.vout = true := by
  simp [Buffers.wf, and_assoc]

end Sys2Proof.Machine
end

