-- ==== Sys2Proof/Laws/PerInstr.lean ====
section
/-! SUPPORT. Facts about a command as syntax, one lemma per constructor. -/

namespace Sys2Proof.Laws

namespace FieldsLegal

/-- A command stands for legal fields, its own operand fields among them (10_state.md R36, 30_encoding.md R77,
R79). -/
def Statement (i : Instr) : Prop :=
  i.wellFormed = true ∧ i.fields = { op := i.opcode, rsvd := 0, len := i.len, count := i.count }

theorem encOne (len count : BitVec 32) : Statement (.encOne len count) := ⟨rfl, rfl⟩
theorem encMany (len count : BitVec 32) : Statement (.encMany len count) := ⟨rfl, rfl⟩
theorem decOne (len count : BitVec 32) : Statement (.decOne len count) := ⟨rfl, rfl⟩
theorem decFixed (len count : BitVec 32) : Statement (.decFixed len count) := ⟨rfl, rfl⟩
theorem decAll (len count : BitVec 32) : Statement (.decAll len count) := ⟨rfl, rfl⟩

end FieldsLegal

end Sys2Proof.Laws
end

