-- ==== Sys2Proof/Laws/State.lean ====
section
/-! SUPPORT. One lemma per register per update (10_state.md R40 to R42, 70_reset_and_hazards.md R170), so that no
proof unfolds a record update. -/

namespace Sys2Proof.Machine

/-! ### `Block.latch`: the register writes of `Accept` -/

section
variable (op : BitVec 3) (len count : BitVec 32) (b : Block)

@[simp] theorem Block.latch_phase : (b.latch op len count).phase = b.phase := rfl
@[simp] theorem Block.latch_cmdOp : (b.latch op len count).cmdOp = op := rfl
@[simp] theorem Block.latch_cmdLen : (b.latch op len count).cmdLen = len := rfl
@[simp] theorem Block.latch_cmdCount : (b.latch op len count).cmdCount = count := rfl
@[simp] theorem Block.latch_seqK : (b.latch op len count).seqK = 0 := rfl
@[simp] theorem Block.latch_pos : (b.latch op len count).pos = 0 := rfl
@[simp] theorem Block.latch_nbytes : (b.latch op len count).nbytes = 0 := rfl
@[simp] theorem Block.latch_encActive : (b.latch op len count).encActive = false := rfl
@[simp] theorem Block.latch_encRem : (b.latch op len count).encRem = 0 := rfl
@[simp] theorem Block.latch_decActive : (b.latch op len count).decActive = false := rfl
@[simp] theorem Block.latch_decAcc : (b.latch op len count).decAcc = 0 := rfl
@[simp] theorem Block.latch_decIdx : (b.latch op len count).decIdx = 0 := rfl
@[simp] theorem Block.latch_rspStatus : (b.latch op len count).rspStatus = b.rspStatus := rfl
@[simp] theorem Block.latch_rspConsumed : (b.latch op len count).rspConsumed = b.rspConsumed := rfl
@[simp] theorem Block.latch_rspNvalues : (b.latch op len count).rspNvalues = b.rspNvalues := rfl
@[simp] theorem Block.latch_rspNbytes : (b.latch op len count).rspNbytes = b.rspNbytes := rfl

end

/-! ### `Block.finish` -/

section
variable (st : BitVec 2) (c n : BitVec 32) (nb : BitVec 36) (b : Block)

@[simp] theorem Block.finish_phase : (b.finish st c n nb).phase = .rsp := rfl
@[simp] theorem Block.finish_cmdOp : (b.finish st c n nb).cmdOp = b.cmdOp := rfl
@[simp] theorem Block.finish_cmdLen : (b.finish st c n nb).cmdLen = b.cmdLen := rfl
@[simp] theorem Block.finish_cmdCount : (b.finish st c n nb).cmdCount = b.cmdCount := rfl
@[simp] theorem Block.finish_seqK : (b.finish st c n nb).seqK = b.seqK := rfl
@[simp] theorem Block.finish_pos : (b.finish st c n nb).pos = b.pos := rfl
@[simp] theorem Block.finish_nbytes : (b.finish st c n nb).nbytes = b.nbytes := rfl
@[simp] theorem Block.finish_encActive : (b.finish st c n nb).encActive = false := rfl
@[simp] theorem Block.finish_encRem : (b.finish st c n nb).encRem = b.encRem := rfl
@[simp] theorem Block.finish_decActive : (b.finish st c n nb).decActive = false := rfl
@[simp] theorem Block.finish_decAcc : (b.finish st c n nb).decAcc = b.decAcc := rfl
@[simp] theorem Block.finish_decIdx : (b.finish st c n nb).decIdx = b.decIdx := rfl
@[simp] theorem Block.finish_rspStatus : (b.finish st c n nb).rspStatus = st := rfl
@[simp] theorem Block.finish_rspConsumed : (b.finish st c n nb).rspConsumed = c := rfl
@[simp] theorem Block.finish_rspNvalues : (b.finish st c n nb).rspNvalues = n := rfl
@[simp] theorem Block.finish_rspNbytes : (b.finish st c n nb).rspNbytes = nb := rfl

end

/-! ### `Block.raise` -/

section
variable (e : ErrorKind) (b : Block)

@[simp] theorem Block.raise_phase : (b.raise e).phase = .rsp := rfl
@[simp] theorem Block.raise_cmdOp : (b.raise e).cmdOp = b.cmdOp := rfl
@[simp] theorem Block.raise_cmdLen : (b.raise e).cmdLen = b.cmdLen := rfl
@[simp] theorem Block.raise_cmdCount : (b.raise e).cmdCount = b.cmdCount := rfl
@[simp] theorem Block.raise_seqK : (b.raise e).seqK = b.seqK := rfl
@[simp] theorem Block.raise_pos : (b.raise e).pos = b.pos := rfl
@[simp] theorem Block.raise_nbytes : (b.raise e).nbytes = b.nbytes := rfl
@[simp] theorem Block.raise_encActive : (b.raise e).encActive = false := rfl
@[simp] theorem Block.raise_encRem : (b.raise e).encRem = b.encRem := rfl
@[simp] theorem Block.raise_decActive : (b.raise e).decActive = false := rfl
@[simp] theorem Block.raise_decAcc : (b.raise e).decAcc = b.decAcc := rfl
@[simp] theorem Block.raise_decIdx : (b.raise e).decIdx = b.decIdx := rfl
@[simp] theorem Block.raise_rspStatus : (b.raise e).rspStatus = e.code := rfl
@[simp] theorem Block.raise_rspConsumed : (b.raise e).rspConsumed = 0 := rfl
@[simp] theorem Block.raise_rspNvalues : (b.raise e).rspNvalues = 0 := rfl
@[simp] theorem Block.raise_rspNbytes : (b.raise e).rspNbytes = 0 := rfl

end

/-! ### Updates of the state, by their four parts -/

section
variable (s : State) (i : Instr) (w : CmdWord)

@[simp] theorem State.popCommand_block : s.popCommand.block = s.block := rfl
@[simp] theorem State.popCommand_buf : s.popCommand.buf = s.buf := rfl
@[simp] theorem State.popCommand_chan : s.popCommand.chan = { s.chan with offered := s.chan.offered.tail } := rfl
@[simp] theorem State.popCommand_level : s.popCommand.level = s.level := rfl
@[simp] theorem State.accept_block : (s.accept i).block = { s.block.latch i.opcode i.len i.count with phase := if i.opcode.toNat ≤ 1 then .enc else .dec } := rfl
@[simp] theorem State.accept_buf : (s.accept i).buf = s.buf := rfl
@[simp] theorem State.accept_chan : (s.accept i).chan = s.chan := rfl
@[simp] theorem State.accept_level : (s.accept i).level = s.level := rfl
@[simp] theorem State.acceptIllegal_block : (s.acceptIllegal w).block = (s.block.latch (opField w) (lenField w) (countField w)).raise .illegalCommand := rfl
@[simp] theorem State.acceptIllegal_buf : (s.acceptIllegal w).buf = s.buf := rfl
@[simp] theorem State.acceptIllegal_chan : (s.acceptIllegal w).chan = s.chan := rfl
@[simp] theorem State.acceptIllegal_level : (s.acceptIllegal w).level = s.level := rfl
@[simp] theorem State.handOff_block : s.handOff.block = { s.block with phase := .idle } := rfl
@[simp] theorem State.handOff_buf : s.handOff.buf = s.buf := rfl
@[simp] theorem State.handOff_chan : s.handOff.chan = { s.chan with taken := s.chan.taken ++ [s.block.rspWord] } := rfl
@[simp] theorem State.handOff_level : s.handOff.level = s.level := rfl
@[simp] theorem State.resetStep_block : s.resetStep.block = Block.reset := rfl
@[simp] theorem State.resetStep_buf : s.resetStep.buf = s.buf := rfl
@[simp] theorem State.resetStep_chan : s.resetStep.chan = s.chan := rfl
@[simp] theorem State.resetStep_level : s.resetStep.level = s.level := rfl
@[simp] theorem State.offerFirst_block : (s.offerFirst w).block = { s.block with phase := .idle } := rfl
@[simp] theorem State.offerFirst_buf : (s.offerFirst w).buf = s.buf := rfl
@[simp] theorem State.offerFirst_chan : (s.offerFirst w).chan = { s.chan with rst := false, offered := w :: s.chan.offered } := rfl
@[simp] theorem State.offerFirst_level : (s.offerFirst w).level = .transaction := rfl

end

/-! ### The transaction-level commands, by the parts they leave alone -/

section
variable (s : State) (op : BitVec 3) (len count m : BitVec 32) (vs : List U64) (c : Nat) (cut : List Byte)

@[simp] theorem encodeCommand_buf_inp : (encodeCommand op len count m s).buf.inp = s.buf.inp := rfl
@[simp] theorem encodeCommand_buf_vin : (encodeCommand op len count m s).buf.vin = s.buf.vin := rfl
@[simp] theorem encodeCommand_buf_vout : (encodeCommand op len count m s).buf.vout = s.buf.vout := rfl
@[simp] theorem encodeCommand_chan : (encodeCommand op len count m s).chan = s.chan := rfl
@[simp] theorem encodeCommand_level : (encodeCommand op len count m s).level = s.level := rfl
@[simp] theorem decodeSucceeds_buf_inp : (decodeSucceeds vs c s).buf.inp = s.buf.inp := rfl
@[simp] theorem decodeSucceeds_buf_vin : (decodeSucceeds vs c s).buf.vin = s.buf.vin := rfl
@[simp] theorem decodeSucceeds_buf_out : (decodeSucceeds vs c s).buf.out = s.buf.out := rfl
@[simp] theorem decodeSucceeds_chan : (decodeSucceeds vs c s).chan = s.chan := rfl
@[simp] theorem decodeSucceeds_level : (decodeSucceeds vs c s).level = s.level := rfl
@[simp] theorem decodeFails_buf_inp : (decodeFails vs cut s).buf.inp = s.buf.inp := rfl
@[simp] theorem decodeFails_buf_vin : (decodeFails vs cut s).buf.vin = s.buf.vin := rfl
@[simp] theorem decodeFails_buf_out : (decodeFails vs cut s).buf.out = s.buf.out := rfl
@[simp] theorem decodeFails_chan : (decodeFails vs cut s).chan = s.chan := rfl
@[simp] theorem decodeFails_level : (decodeFails vs cut s).level = s.level := rfl
@[simp] theorem beginDecode_buf : (beginDecode op len count s).buf = s.buf := rfl
@[simp] theorem beginDecode_chan : (beginDecode op len count s).chan = s.chan := rfl
@[simp] theorem beginDecode_level : (beginDecode op len count s).level = s.level := rfl

@[simp] theorem beginDecode_block : (beginDecode op len count s).block = s.block.latch op len count := rfl
@[simp] theorem decodeSucceeds_vout :
    (decodeSucceeds vs c s).buf.vout = Memory.writeSeq s.buf.vout 0 vs := rfl
@[simp] theorem decodeFails_vout : (decodeFails vs cut s).buf.vout = Memory.writeSeq s.buf.vout 0 vs := rfl
@[simp] theorem encodeCommand_out :
    (encodeCommand op len count m s).buf.out
      = Memory.writeSeq s.buf.out 0 (encodeMany (s.buf.values m.toNat)) := rfl

end

end Sys2Proof.Machine
end

