-- ==== Sys2Proof/Laws/Step.lean ====
section
/-! SUPPORT. What a step can do, said once (10_state.md R39): the inversion lemma of `step`, and the equations of the
shared operations over registers. -/

namespace Sys2Proof.Machine

/-- Every command answers a next state: none faults, none is refused (60_exceptions.md R156). -/
theorem exec_next (i : Instr) (s : State) : ∃ t, exec i s = .next t := by
  cases i <;> exact ⟨_, rfl⟩

/-- The activity of a step names its case of 10_state.md R39. -/
theorem activity_cases (s : State) :
    (s.chan.rst = true ∧ activity s = .reset) ∨
    (s.chan.rst = false ∧ s.block.phase = .idle ∧ s.chan.offered = [] ∧ activity s = .wait) ∨
    (∃ w rest i, s.chan.rst = false ∧ s.block.phase = .idle ∧ s.chan.offered = w :: rest ∧
      Sys2Proof.decode w = .ok i ∧ activity s = .command i) ∨
    (∃ w rest e, s.chan.rst = false ∧ s.block.phase = .idle ∧ s.chan.offered = w :: rest ∧
      Sys2Proof.decode w = .error e ∧ activity s = .illegal w) ∨
    (s.chan.rst = false ∧ s.block.phase = .enc ∧ activity s = .encode) ∨
    (s.chan.rst = false ∧ s.block.phase = .dec ∧ activity s = .decode) ∨
    (s.chan.rst = false ∧ s.block.phase = .rsp ∧ s.chan.rspReady = true ∧ activity s = .handOff) ∨
    (s.chan.rst = false ∧ s.block.phase = .rsp ∧ s.chan.rspReady = false ∧ activity s = .wait) := by
  unfold activity
  cases hr : s.chan.rst
  · cases hp : s.block.phase
    · cases ho : s.chan.offered with
      | nil => simp
      | cons w rest => cases hd : Sys2Proof.decode w <;> simp [transferOf, hd]
    · simp
    · simp
    · cases hy : s.chan.rspReady <;> simp
  · simp

/-- Everything a step can do, guards included. -/
theorem step_cases {s t : State} (h : step s = .next t) :
    (s.chan.rst = true ∧ t = s.resetStep) ∨
    (s.chan.rst = false ∧ s.block.phase = .idle ∧ s.chan.offered = [] ∧ t = s) ∨
    (∃ w rest i, s.chan.rst = false ∧ s.block.phase = .idle ∧ s.chan.offered = w :: rest ∧
      Sys2Proof.decode w = .ok i ∧ s.level = .transaction ∧ exec i s.popCommand = .next t) ∨
    (∃ w rest i, s.chan.rst = false ∧ s.block.phase = .idle ∧ s.chan.offered = w :: rest ∧
      Sys2Proof.decode w = .ok i ∧ s.level = .microStep ∧ t = s.popCommand.accept i) ∨
    (∃ w rest e, s.chan.rst = false ∧ s.block.phase = .idle ∧ s.chan.offered = w :: rest ∧
      Sys2Proof.decode w = .error e ∧ t = s.popCommand.acceptIllegal w) ∨
    (s.chan.rst = false ∧ s.block.phase = .enc ∧ t = encStep s) ∨
    (s.chan.rst = false ∧ s.block.phase = .dec ∧ t = decStep s) ∨
    (s.chan.rst = false ∧ s.block.phase = .rsp ∧ s.chan.rspReady = true ∧ t = s.handOff) ∨
    (s.chan.rst = false ∧ s.block.phase = .rsp ∧ s.chan.rspReady = false ∧ t = s) := by
  unfold step at h
  obtain ⟨hr, ha⟩ | ⟨hr, hp, ho, ha⟩ | ⟨w, rest, i, hr, hp, ho, hd, ha⟩ | ⟨w, rest, e, hr, hp, ho, hd, ha⟩ |
    ⟨hr, hp, ha⟩ | ⟨hr, hp, ha⟩ | ⟨hr, hp, hy, ha⟩ | ⟨hr, hp, hy, ha⟩ := activity_cases s
  all_goals simp only [ha, Host.Outcome.next.injEq] at h
  · exact .inl ⟨hr, h.symm⟩
  · exact .inr (.inl ⟨hr, hp, ho, h.symm⟩)
  · cases hl : s.level <;> simp only [hl, Host.Outcome.next.injEq] at h
    · exact .inr (.inr (.inl ⟨w, rest, i, hr, hp, ho, hd, rfl, h⟩))
    · exact .inr (.inr (.inr (.inl ⟨w, rest, i, hr, hp, ho, hd, rfl, h.symm⟩)))
  · exact .inr (.inr (.inr (.inr (.inl ⟨w, rest, e, hr, hp, ho, hd, h.symm⟩))))
  · exact .inr (.inr (.inr (.inr (.inr (.inl ⟨hr, hp, h.symm⟩)))))
  · exact .inr (.inr (.inr (.inr (.inr (.inr (.inl ⟨hr, hp, h.symm⟩))))))
  · exact .inr (.inr (.inr (.inr (.inr (.inr (.inr (.inl ⟨hr, hp, hy, h.symm⟩)))))))
  · exact .inr (.inr (.inr (.inr (.inr (.inr (.inr (.inr ⟨hr, hp, hy, h.symm⟩)))))))

/-- No step faults or is refused (60_exceptions.md R156). -/
theorem step_next (s : State) : ∃ t, step s = .next t := by
  unfold step
  obtain ⟨_, ha⟩ | ⟨_, _, _, ha⟩ | ⟨w, rest, i, _, _, _, _, ha⟩ | ⟨w, rest, e, _, _, _, _, ha⟩ |
    ⟨_, _, ha⟩ | ⟨_, _, ha⟩ | ⟨_, _, _, ha⟩ | ⟨_, _, _, ha⟩ := activity_cases s
  all_goals simp only [ha]
  case inr.inr.inl =>
    cases s.level
    · exact exec_next i s.popCommand
    · exact ⟨_, rfl⟩
  all_goals exact ⟨_, rfl⟩

/-- A run begins with its first step. -/
theorem run_succ {s t : State} (h : step s = .next t) (n : Nat) : run (n + 1) s = run n t := by
  rw [run, h]

/-- A run of one step. -/
theorem run_one {s t : State} (h : step s = .next t) : run 1 s = .next t := run_succ h 0

/-- Runs compose. -/
theorem run_add {s t : State} {m : Nat} (h : run m s = .next t) (n : Nat) : run (m + n) s = run n t := by
  induction m generalizing s with
  | zero =>
    rw [run, Host.Outcome.next.injEq] at h
    rw [h, Nat.zero_add]
  | succ m ih =>
    obtain ⟨u, hu⟩ := step_next s
    rw [run_succ hu] at h
    rw [Nat.add_right_comm, run_succ hu, ih h]

/-- A state that steps to itself stays. -/
theorem run_of_step_self {s : State} (h : step s = .next s) (n : Nat) : run n s = .next s := by
  induction n with
  | zero => rfl
  | succ n ih => rw [run_succ h, ih]

/-- `run` is the run of the host's interface. -/
theorem core_run (n : Nat) (s : State) : Host.Core.run Sys2Proof.core n s = run n s := by
  induction n generalizing s with
  | zero => rfl
  | succ n ih =>
    obtain ⟨t, ht⟩ := step_next s
    have hc : Sys2Proof.core.step s = .next t := ht
    simp only [Host.Core.run, hc]
    exact (ih t).trans (run_succ ht n).symm

end Sys2Proof.Machine
end

