-- ==== Sys2Proof/Laws/Units.lean ====
section
/-! SUPPORT. What the two units' steps and the transaction-level operations can do, said once (40_encoder.md R104,
R105, 41_decoder.md R125 to R128, R130). -/

namespace Sys2Proof.Machine

/-- The encoder's three steps: finish, fetch a value, emit a byte. -/
theorem encStep_cases (s : State) :
    (s.block.encActive = false ∧ s.block.seqK = s.block.encodeCount ∧
      encStep s = { s with block := s.block.finish statusOk 0 s.block.seqK s.block.nbytes }) ∨
    (s.block.encActive = false ∧ s.block.seqK ≠ s.block.encodeCount ∧
      encStep s = { s with block := { s.block with
        encRem := Memory.read s.buf.vin s.block.seqK.toNat, encActive := true } }) ∨
    (s.block.encActive = true ∧
      encStep s = { s with
        block := { s.block with
          nbytes := s.block.nbytes + 1
          encRem := s.block.encRem >>> 7
          encActive := decide (s.block.encRem >>> 7 ≠ 0)
          seqK := if s.block.encRem >>> 7 = 0 then s.block.seqK + 1 else s.block.seqK }
        buf := { s.buf with out := Memory.write s.buf.out s.block.nbytes.toNat s.block.encByte } }) := by
  cases ha : s.block.encActive
  · by_cases hk : s.block.seqK = s.block.encodeCount
    · exact .inl ⟨rfl, hk, by rw [encStep, if_neg (by simp [ha]), if_pos hk]⟩
    · exact .inr (.inl ⟨rfl, hk, by rw [encStep, if_neg (by simp [ha]), if_neg hk]⟩)
  · exact .inr (.inr ⟨rfl, by rw [encStep, if_pos ha]⟩)

/-- The decoder's four steps: finish, fail at the end of the input, consume a byte with more to follow, consume a
terminal byte. -/
theorem decStep_cases (s : State) :
    (s.block.decodeDone = true ∧
      decStep s = { s with block := s.block.finish statusOk s.block.pos s.block.seqK 0 }) ∨
    (s.block.decodeDone = false ∧ s.block.pos = s.block.cmdLen ∧
      decStep s = { s with block := s.block.raise .unexpectedEndOfInput }) ∨
    (s.block.decodeDone = false ∧ s.block.pos ≠ s.block.cmdLen ∧ contBitOf s.decByte = true ∧
      decStep s = { s with block := { s.block with
        pos := s.block.pos + 1
        decAcc := s.decNext
        decIdx := BitVec.ofNat 4 (min (s.block.inFlight.2.toNat + 1) Config.idxSaturation)
        decActive := true } }) ∨
    (s.block.decodeDone = false ∧ s.block.pos ≠ s.block.cmdLen ∧ contBitOf s.decByte = false ∧
      decStep s = { s with
        block := { s.block with
          pos := s.block.pos + 1, seqK := s.block.seqK + 1, decActive := false, decAcc := 0, decIdx := 0 }
        buf := { s.buf with vout := Memory.write s.buf.vout s.block.seqK.toNat s.decNext } }) := by
  cases hd : s.block.decodeDone
  · by_cases hp : s.block.pos = s.block.cmdLen
    · exact .inr (.inl ⟨rfl, hp, by rw [decStep, if_neg (by simp [hd]), if_pos hp]⟩)
    · cases hc : contBitOf s.decByte
      · exact .inr (.inr (.inr ⟨rfl, hp, rfl,
          by rw [decStep, if_neg (by simp [hd]), if_neg hp, if_neg (by simp [hc])]⟩))
      · exact .inr (.inr (.inl ⟨rfl, hp, rfl,
          by rw [decStep, if_neg (by simp [hd]), if_neg hp, if_pos hc]⟩))
  · exact .inl ⟨rfl, by rw [decStep, if_pos hd]⟩

/-- The registers an encode command leaves. -/
theorem encodeCommand_block (op : BitVec 3) (len count m : BitVec 32) (s : State) :
    (encodeCommand op len count m s).block
      = { s.block.latch op len count with
          seqK := m
          nbytes := BitVec.ofNat 36 (encodeMany (s.buf.values m.toNat)).length
          rspStatus := statusOk, rspConsumed := 0, rspNvalues := m
          rspNbytes := BitVec.ofNat 36 (encodeMany (s.buf.values m.toNat)).length
          phase := .rsp } := rfl

/-- The registers a decode command leaves when it succeeds. -/
theorem decodeSucceeds_block (vs : List U64) (c : Nat) (s : State) :
    (decodeSucceeds vs c s).block
      = { s.block with
          seqK := BitVec.ofNat 32 vs.length, pos := BitVec.ofNat 32 c
          rspStatus := statusOk, rspConsumed := BitVec.ofNat 32 c
          rspNvalues := BitVec.ofNat 32 vs.length, rspNbytes := 0
          encActive := false, decActive := false, phase := .rsp } := rfl

/-- The registers a decode command leaves when its input ends too early. -/
theorem decodeFails_block (vs : List U64) (cut : List Byte) (s : State) :
    (decodeFails vs cut s).block
      = { s.block with
          seqK := BitVec.ofNat 32 vs.length, pos := s.block.cmdLen
          decAcc := accumulate 0 0 cut
          decIdx := BitVec.ofNat 4 (min cut.length Config.idxSaturation)
          rspStatus := ErrorKind.code .unexpectedEndOfInput
          rspConsumed := 0, rspNvalues := 0, rspNbytes := 0
          encActive := false, decActive := false, phase := .rsp } := rfl

end Sys2Proof.Machine
end

