-- ==== Sys2Proof/Tests/Slice0.lean ====
section
/-! SUPPORT. Tests: the well-formedness smoke tests, command words written out from the spec's encoding, vectors of
95_test_vectors.md, and for every statement with hypotheses a witness that meets them (`wit_…`). -/

namespace Sys2Proof.Tests

open Sys2Proof Sys2Proof.Machine Sys2Proof.Claims

/-! ### Small states -/

/-- The state a command ends in. -/
def after (i : Instr) (s : State) : State :=
  match exec i s with
  | .next t => t
  | .fault _ => s
  | .refused _ => s

/-- The response registers as `(STATUS, CONSUMED, NVALUES, NBYTES)` (30_encoding.md R87). -/
def response (s : State) : Nat × Nat × Nat × Nat :=
  (s.block.rspStatus.toNat, s.block.rspConsumed.toNat, s.block.rspNvalues.toNat, s.block.rspNbytes.toNat)

/-- An idle machine with IN and VIN preset from offset 0 (30_encoding.md R89). -/
def preset (inp : List Byte) (vin : List U64) : State :=
  { State.reset with
    buf := { inp := Memory.writeSeq [] 0 inp, vin := Memory.writeSeq [] 0 vin, out := [], vout := [] } }

/-- The same, offering a word at a level. -/
def offering (l : Level) (w : CmdWord) (s : State) : State :=
  { s with chan := { rst := false, rspReady := false, offered := [w], taken := [] }, level := l }

/-- A machine in the middle of a command. -/
def running (b : Block) (inp : List Byte) (vin : List U64) : State :=
  { preset inp vin with block := b, level := .microStep }

/-- The state a step gives. -/
def stepped (s : State) : State :=
  match step s with
  | .next t => t
  | .fault _ => s
  | .refused _ => s

/-! ### Widths and numbers (00_scope.md R8, R9; 10_state.md R24) -/

theorem test_widths :
    Config.valueW = 64 ∧ Config.lenW = 32 ∧ Config.cntW = 32 ∧ Config.nbytesW = 36 ∧ Config.idxW = 4 ∧
      Config.groupW = 7 ∧ Config.contBit = 7 ∧ Config.maxEncLen = 10 ∧ Config.minEncLen = 1 ∧
      10 * (2 ^ Config.cntW - 1) < 2 ^ Config.nbytesW := by decide

theorem test_phase_numbers :
    Phase.idle.code = 0 ∧ Phase.enc.code = 1 ∧ Phase.dec.code = 2 ∧ Phase.rsp.code = 3 := by decide

/-! ### Well-formedness: an ill-formed term for each check (30_encoding.md R85) -/

theorem test_opcode5_refused :
    (CommandFields.mk 5 0 0 0).opLegal = false ∧ (CommandFields.mk 5 0 0 0).legal = false := by decide

theorem test_opcode7_refused :
    (CommandFields.mk 7 0 1 1).opLegal = false ∧ (CommandFields.mk 7 0 1 1).legal = false := by decide

theorem test_reserved_bits_refused :
    (CommandFields.mk 2 1 0 0).rsvdLegal = false ∧ (CommandFields.mk 2 1 0 0).legal = false := by decide

theorem test_legal_fields_accepted :
    (CommandFields.mk 4 0 0xFFFFFFFF 0xFFFFFFFF).legal = true ∧ (Instr.decAll 1 1).wellFormed = true := by decide

/-! ### Words written out field by field, COUNT, LEN, RSVD, OP (30_encoding.md R77, R79) -/

theorem test_word_encOne :
    decode (0x00000007#32 ++ 0x00000009#32 ++ 0b00000#5 ++ 0b000#3) = .ok (.encOne 9 7) := by decide

theorem test_word_encMany :
    decode (0x00000004#32 ++ 0x00000000#32 ++ 0b00000#5 ++ 0b001#3) = .ok (.encMany 0 4) := by decide

theorem test_word_decOne :
    decode (0x00000000#32 ++ 0x00000005#32 ++ 0b00000#5 ++ 0b010#3) = .ok (.decOne 5 0) := by decide

theorem test_word_decFixed :
    decode (0x00000002#32 ++ 0x80000004#32 ++ 0b00000#5 ++ 0b011#3) = .ok (.decFixed 0x80000004 2) := by decide

theorem test_word_decAll :
    decode (0x80000000#32 ++ 0x00000016#32 ++ 0b00000#5 ++ 0b100#3) = .ok (.decAll 0x16 0x80000000) := by decide

theorem test_word_illegal :
    decode (0#32 ++ 0#32 ++ 0b00000#5 ++ 0b110#3) = .error (.reservedOpcode 6) ∧
      decode (0#32 ++ 0#32 ++ 0b10000#5 ++ 0b001#3) = .error (.reservedBits 16) := by decide

/-- The words of 95_test_vectors.md, sections 2.4 and 3 (P1), from the textual syntax. -/
theorem test_assembled_words :
    assemble (.decFixed 4 2) = 0x000000020000000403#72 ∧ assemble (.encMany 4) = 0x000000040000000001#72 ∧
      assemble (.decAll 15) = 0x000000000000000F04#72 := by decide

theorem test_table_words :
    decodeTableWord 8 0x00 = some (.encOne 0 0) ∧ decodeTableWord 8 0x01 = some (.encMany 0 0) ∧
      decodeTableWord 8 0x02 = some (.decOne 0 0) ∧ decodeTableWord 8 0x03 = some (.decFixed 0 0) ∧
      decodeTableWord 72 0x000000000000001604 = some (.decAll 0x16 0) ∧ decodeTableWord 8 0x05 = none := by decide

theorem test_placed_word_runs :
    response (stepped (State.reset.withFetchWord 8 0x00)) = (0, 0, 1, 1) ∧
      response (stepped (State.reset.withFetchWord 8 0x01)) = (0, 0, 0, 0) ∧
      response (stepped (State.reset.withFetchWord 8 0x02)) = (1, 0, 0, 0) ∧
      response (stepped (State.reset.withFetchWord 72 0x000000020000000203)) = (0, 2, 2, 0) ∧
      response (stepped (State.reset.withFetchWord 72 0x000000000000000304)) = (0, 3, 3, 0) := by decide

/-! ### Vectors of 95_test_vectors.md -/

/-- Section 2.1: 300, and 2^64 - 1 with its packed response. -/
theorem test_encOne_300 :
    (after (.encOne 9 7) (preset [] [300])).buf.out = [(0, 0xAC), (1, 0x02)] ∧
      response (after (.encOne 9 7) (preset [] [300])) = (0, 0, 1, 2) := by decide

theorem test_encOne_max :
    encodeOne 0xFFFFFFFFFFFFFFFF = [0xFF, 0xFF, 0xFF, 0xFF, 0xFF, 0xFF, 0xFF, 0xFF, 0xFF, 0x01] ∧
      (pack 0 0 1 10).toNat = 0x00000000A000000010000000000 := by decide

/-- Section 2.2: the zero byte in the middle of a batch is written. -/
theorem test_encMany_batch :
    (after (.encMany 0 3) (preset [] [0, 128, 300])).outResult = [0x00, 0x80, 0x01, 0xAC, 0x02] ∧
      response (after (.encMany 0 3) (preset [] [0, 128, 300])) = (0, 0, 3, 5) := by decide

theorem test_encMany_none : response (after (.encMany 5 0) (preset [] [1])) = (0, 0, 0, 0) := by decide

/-- Section 2.3: a trailing byte is the rest; the packed response. -/
theorem test_decOne_rest :
    (after (.decOne 3 0) (preset [0xAC, 0x02, 0x7F] [])).voutResult = [300] ∧
      (after (.decOne 3 0) (preset [0xAC, 0x02, 0x7F] [])).rest = [0x7F] ∧
      (pack 0 2 1 0).toNat = 0x000000000000000010000000200 := by decide

/-- Section 2.3: IN[1] is beyond LEN; and over-long input truncates. -/
theorem test_decOne_cut_and_overlong :
    response (after (.decOne 1 0) (preset [0x80, 0x01] [])) = (1, 0, 0, 0) ∧
      decodeOne (List.replicate 9 0xFF ++ [0x02]) = .ok (9223372036854775807, []) ∧
      decodeOne (0x81 :: List.replicate 9 0x80 ++ [0x01]) = .ok (1, []) ∧
      decodeOne (List.replicate 10 0xFF ++ [0x01]) = .ok (18446744073709551615, []) := by decide

/-- Section 2.4: COUNT 2 leaves the rest, COUNT 4 fails after three values. -/
theorem test_decFixed_two :
    response (after (.decFixed 4 2) (preset [0x00, 0x80, 0x01, 0x05] [])) = (0, 3, 2, 0) ∧
      (after (.decFixed 4 2) (preset [0x00, 0x80, 0x01, 0x05] [])).voutResult = [0, 128] := by decide

theorem test_decFixed_too_few :
    response (after (.decFixed 4 4) (preset [0x00, 0x80, 0x01, 0x05] [])) = (1, 0, 0, 0) ∧
      (after (.decFixed 4 4) (preset [0x00, 0x80, 0x01, 0x05] [])).buf.vout = [(1, 128), (2, 5)] ∧
      (after (.decFixed 4 4) (preset [0x00, 0x80, 0x01, 0x05] [])).block.seqK = 3 := by decide

/-- Section 2.5: an 11-byte zero and a 5; a value cut short. -/
theorem test_decAll_overlong :
    response (after (.decAll 12 0) (preset (List.replicate 10 0x80 ++ [0x00, 0x05]) [])) = (0, 12, 2, 0) ∧
      (after (.decAll 12 0) (preset (List.replicate 10 0x80 ++ [0x00, 0x05]) [])).voutResult = [0, 5] := by decide

theorem test_decAll_cut :
    response (after (.decAll 3 0) (preset [0xAC, 0x02, 0x80] [])) = (1, 0, 0, 0) ∧
      (after (.decAll 3 0) (preset [0xAC, 0x02, 0x80] [])).buf.vout = [(0, 300)] := by decide

/-- Section 2.6: an illegal word ends in its accept step; the packed response. -/
theorem test_illegal_word :
    (stepped (offering .microStep 0x0000000000000003FA (preset [] []))).block.rspWord.toNat = 3 ∧
      (stepped (offering .microStep 0x0000000000000003FA (preset [] []))).block.phase = .rsp ∧
      (stepped (offering .microStep 0x0000000000000003FA (preset [] []))).block.cmdLen = 3 := by decide

/-- A byte equal to what an unlisted element reads as is not listed; a listed one is replaced (20_memory.md R62). -/
theorem test_write_keeps_canonical_form :
    Memory.write [(3, 7#8)] 3 0 = [] ∧ Memory.write [(3, 7#8)] 1 5 = [(1, 5), (3, 7)] ∧
      Memory.wf (2 ^ 32) ([(3, 7), (3, 8)] : Memory 8) = false := by decide

/-! ### Witnesses -/

theorem wit_DecodeOfEncode : (Instr.decFixed 0xFFFFFFFF 0x80000000).wellFormed = true := by decide

theorem wit_EncodeOfDecode : decode 0x00000001000000FF03#72 = .ok (.decFixed 0xFF 1) := by decide

/-- The first and the last byte index, of a two-byte and of a ten-byte encoding. -/
theorem wit_EncodedByteCarriesItsGroup :
    0 < (encodeOne 300).length ∧ 1 < (encodeOne 300).length ∧ 9 < (encodeOne 0xFFFFFFFFFFFFFFFF).length := by decide

theorem wit_EncodingIsMinimalAndCanonical :
    (1 : U64) ≠ 0 ∧ (encodeOne 1).getLast? = some 0x01 ∧ bitLength 0xFFFFFFFFFFFFFFFF = 64 ∧ bitLength 0 = 0 := by
  decide

theorem wit_EncodingIsInjective : encodeOne 300 = encodeOne 0x12C := by decide

/-- A group of seven bits at the boundary indexes 8, 9 and 10, and a shift of the whole width. -/
theorem wit_OverlongInputTruncatesSilently :
    (0x7F : U64).toNat < 2 ^ 7 ∧ shl64 0x7F (7 * 8) = 0x7F00000000000000 ∧ shl64 0x7F (7 * 9) = 0x8000000000000000 ∧
      shl64 0x7F (7 * 10) = 0 ∧ shl64 1 64 = 0 ∧ shl64 1 63 = 0x8000000000000000 := by decide

/-- Over-long input: the groups at the indexes 9 and 10 (95_test_vectors.md, section 2.3). -/
theorem test_contributed :
    contributed (List.replicate 9 0xFF ++ [0x02]) = 9223372036854775807 ∧
      contributed (0x81 :: List.replicate 9 0x80 ++ [0x01]) = 1 := by decide

theorem wit_Framed : Framed [0x80, 0x00] ∧ Framed [0x05] :=
  ⟨⟨[0x80], 0x00, rfl, by decide, by decide⟩, ⟨[], 0x05, rfl, by decide, by decide⟩⟩

theorem wit_command_answers_next : ∃ t, exec (.decOne 0 0) State.reset = .next t := ⟨_, rfl⟩

theorem wit_DecodeConsumesMinimalPrefix :
    decodeOne [0xAC, 0x02, 0x7F] = .ok (300, [0x7F]) ∧ decodeOne [0x80, 0x00] = .ok (0, []) := by decide

theorem wit_DecodeFailsExactlyWithoutTerminalByte :
    decodeOne [] = .error .unexpectedEndOfInput ∧ decodeOne [0xFF, 0x80] = .error .unexpectedEndOfInput ∧
      ∀ b ∈ ([0xFF, 0x80] : List Byte), b.getLsbD 7 = true := by decide

theorem wit_TruncatedEncodingFails : 0 < (encodeOne 0).length ∧ 1 < (encodeOne 128).length := by decide

theorem wit_RoundTripOfOneValue :
    (preset [] [300]).buf.wf = true ∧ (preset [0xAC, 0x02] []).buf.wf = true ∧
      exec (.encOne 0 0) (preset [] [300]) = .next (after (.encOne 0 0) (preset [] [300])) ∧
      (after (.encOne 0 0) (preset [] [300])).block.rspNbytes.toNat = (2 : BitVec 32).toNat ∧
      ∀ k, k < 2 → (preset [0xAC, 0x02] []).buf.inp.read k = (after (.encOne 0 0) (preset [] [300])).buf.out.read k :=
  ⟨by decide, by decide, rfl, by decide, by decide⟩

theorem wit_RoundTripOfBatchThroughBuffers :
    (preset [] [0, 128]).buf.wf = true ∧ (preset [0x00, 0x80, 0x01] []).buf.wf = true ∧
      exec (.encMany 0 2) (preset [] [0, 128]) = .next (after (.encMany 0 2) (preset [] [0, 128])) ∧
      (after (.encMany 0 2) (preset [] [0, 128])).block.rspNbytes.toNat = (3 : BitVec 32).toNat ∧
      ∀ k, k < 3 → (preset [0x00, 0x80, 0x01] []).buf.inp.read k
        = (after (.encMany 0 2) (preset [] [0, 128])).buf.out.read k :=
  ⟨by decide, by decide, rfl, by decide, by decide⟩

theorem wit_EncOneEncodesOneValue :
    (0x000000070000000900#72).extractLsb' 0 8 = 0x00#8 ∧ (preset [] [300]).buf.wf = true ∧
      HoldsFrom ([] : Memory 8) [(0, 0xAC), (1, 0x02)] [0xAC, 0x02] :=
  ⟨by decide, by decide, fun k => by rcases k with _ | _ | k <;> simp [Memory.read]⟩

theorem wit_EncManyEncodesBatch :
    (preset [] [0, 128]).buf.wf = true ∧
      [0x00, 0x80, 0x01] = ((firstOf (preset [] [0, 128]).buf.vin (2 : BitVec 32).toNat).map encodeOne).flatten ∧
      (0 : BitVec 32) = 0 := by decide

theorem wit_EncManyOfOneIsEncOne :
    (∃ t, exec (.encMany 0 1) (preset [] [5]) = .next t) ∧ (∃ t, exec (.encOne 3 9) (preset [] [5]) = .next t) :=
  ⟨⟨_, rfl⟩, ⟨_, rfl⟩⟩

/-- The success clause, the failure clause and the empty input. -/
theorem wit_DecOneDecodesOneValue :
    (0x000000000000000502#72).extractLsb' 0 8 = 0x02#8 ∧ (preset [0xAC, 0x02, 0x7F] []).buf.wf = true ∧
      decodeOne (firstOf (preset [0xAC, 0x02, 0x7F] []).buf.inp (3 : BitVec 32).toNat) = .ok (300, [0x7F]) ∧
      decodeOne (firstOf (preset [0xAC, 0x02, 0x7F] []).buf.inp (1 : BitVec 32).toNat)
        = .error .unexpectedEndOfInput ∧
      decodeOne (firstOf (preset [0xAC] []).buf.inp (0 : BitVec 32).toNat) = .error .unexpectedEndOfInput := by decide

/-- The success clause, the failure clause and COUNT 0. -/
theorem wit_DecFixedDecodesCountValues :
    (0x000000020000000403#72).extractLsb' 0 8 = 0x03#8 ∧ (preset [0x00, 0x80] []).buf.wf = true ∧
      decodeFixed (firstOf (preset [0x00, 0x80] []).buf.inp (2 : BitVec 32).toNat) (1 : BitVec 32).toNat
        = .ok ([0], [0x80]) ∧
      decodeFixed (firstOf (preset [0x00, 0x80] []).buf.inp (2 : BitVec 32).toNat) (2 : BitVec 32).toNat
        = .error .unexpectedEndOfInput ∧
      decodeFixed (firstOf (preset [0x80] []).buf.inp (1 : BitVec 32).toNat) (0 : BitVec 32).toNat
        = .ok ([], [0x80]) := by decide

theorem wit_DecodeFixedThreadsTheRest :
    decodeFixed [0x00, 0x80, 0x01] 1 = .ok ([0], [0x80, 0x01]) ∧ decodeFixed [0x80, 0x01] 1 = .ok ([128], []) ∧
      decodeFixed [0x80, 0x01] 2 = .error .unexpectedEndOfInput := by decide

/-- The success clause, the cut clause and the empty input. -/
theorem wit_DecAllDecodesWholeInput :
    (0x000000000000001604#72).extractLsb' 0 8 = 0x04#8 ∧ (preset [0x00, 0x80] []).buf.wf = true ∧
      decodeFixed (firstOf (preset [0x00, 0x80] []).buf.inp (1 : BitVec 32).toNat) 1 = .ok ([0], []) ∧
      decodeFixed (firstOf (preset [0x00, 0x80] []).buf.inp (2 : BitVec 32).toNat) 1 = .ok ([0], [0x80]) ∧
      decodeOne [0x80] = .error .unexpectedEndOfInput ∧
      decodeFixed (firstOf (preset [0x00] []).buf.inp (0 : BitVec 32).toNat) 0 = .ok ([], []) := by decide

/-- All three commands. -/
theorem wit_RestIsTheUnreadInput :
    decodeFixed (firstOf (preset [0x05, 0x7F] []).buf.inp (2 : BitVec 32).toNat) 1 = .ok ([5], [0x7F]) ∧
      decodeFixed (firstOf (preset [0x05, 0x7F] []).buf.inp (2 : BitVec 32).toNat) 2 = .ok ([5, 0x7F], []) ∧
      (preset [0x05, 0x01] []).buf.vout = (preset [0x05, 0x7F] []).buf.vout ∧
      (after (.decOne 2 0) (preset [0x05, 0x7F] [])).block.rspConsumed.toNat = 1 ∧
      ∀ k, k < 1 → (preset [0x05, 0x01] []).buf.inp.read k = (preset [0x05, 0x7F] []).buf.inp.read k := by decide

/-- An offset at the end of the encoding, for the frame's bound. -/
theorem wit_EncodeCommandFrame :
    (∃ t, exec (.encOne 1 1) (preset [] [300]) = .next t) ∧ (∃ t, exec (.encMany 1 1) (preset [] [300]) = .next t) ∧
      (encodeMany ((preset [] [300]).buf.values 1)).length ≤ 2 :=
  ⟨⟨_, rfl⟩, ⟨_, rfl⟩, by decide⟩

/-- Each command where it succeeds and where it fails, at the bound the frame computes. -/
theorem wit_DecodeCommandFrame :
    exec (.decOne 1 1) (preset [5] []) = .next (after (.decOne 1 1) (preset [5] [])) ∧
      (decodedBefore ((preset [5] []).buf.data 1) 1).1.length = 1 ∧
      exec (.decOne 1 1) (preset [0x80] []) = .next (after (.decOne 1 1) (preset [0x80] [])) ∧
      (decodedBefore ((preset [0x80] []).buf.data 1) 1).1.length = 0 ∧
      exec (.decFixed 2 2) (preset [5, 0x80] []) = .next (after (.decFixed 2 2) (preset [5, 0x80] [])) ∧
      (after (.decFixed 2 2) (preset [5, 0x80] [])).block.rspStatus = 1 ∧
      (decodedBefore ((preset [5, 0x80] []).buf.data 2) (2 : BitVec 32).toNat).1.length = 1 ∧
      exec (.decAll 2 0) (preset [5, 0x80] []) = .next (after (.decAll 2 0) (preset [5, 0x80] [])) ∧
      (after (.decAll 2 0) (preset [5, 0x80] [])).block.rspStatus = 1 ∧
      (decodedBefore ((preset [5, 0x80] []).buf.data 2) (2 : BitVec 32).toNat).1.length = 1 :=
  ⟨rfl, by decide, rfl, by decide, rfl, by decide, by decide, rfl, by decide, by decide⟩

theorem wit_UnusedFieldsChangeNothing :
    (∃ t, exec (.encOne 1 2) State.reset = .next t) ∧ (∃ t, exec (.encMany 1 2) State.reset = .next t) ∧
      (∃ t, exec (.decOne 1 2) State.reset = .next t) ∧ (∃ t, exec (.decAll 1 2) State.reset = .next t) :=
  ⟨⟨_, rfl⟩, ⟨_, rfl⟩, ⟨_, rfl⟩, ⟨_, rfl⟩⟩

/-- Two states that differ in a register, in OUT and in IN beyond LEN. -/
theorem wit_ResultDependsOnlyOnInput :
    (preset [5, 6] []).buf.wf = true ∧ (preset [5, 7] [9]).buf.wf = true ∧
      preset [5, 6] [] ≠ preset [5, 7] [9] ∧
      (∀ k, k < encodeValues (.decAll 1 0) → (preset [5, 7] [9]).buf.vin.read k = (preset [5, 6] []).buf.vin.read k) ∧
      (∀ k, k < inputLength (.decAll 1 0) →
        (preset [5, 7] [9]).buf.inp.read k = (preset [5, 6] []).buf.inp.read k) := by decide

theorem wit_StepRunsDecodedCommand :
    Offers (offering .transaction 0x01 (preset [] [])) 0x01 [] ∧ decode 0x01 = .ok (.encMany 0 0) ∧
      (offering .transaction 0x01 (preset [] [])).level = .transaction :=
  ⟨⟨rfl, rfl, rfl⟩, by decide, rfl⟩

theorem wit_PlacedWordRunsNext :
    decodeTableWord 72 0x000000030000000403 = some (.decFixed 4 3) ∧ decodeTableWord 8 0x104 = some (.decAll 0 0) := by
  decide

/-- An encode word, a decode word and both kinds of illegal word, at the micro-step level. -/
theorem wit_AcceptLatchesTheCommand :
    Offers (offering .microStep 0x01 State.reset) 0x01 [] ∧ Offers (offering .microStep 0x02 State.reset) 0x02 [] ∧
      Offers (offering .microStep 0x05 State.reset) 0x05 [] ∧ Offers (offering .microStep 0x08 State.reset) 0x08 [] ∧
      ((0x01#72).extractLsb' 0 3).toNat ≤ 1 ∧ ((0x04#72).extractLsb' 0 3).toNat ≤ 4 ∧
      ¬ ((0x05#72).extractLsb' 0 3).toNat ≤ 4 ∧ ¬ (0x08#72).extractLsb' 3 5 = 0 :=
  ⟨⟨rfl, rfl, rfl⟩, ⟨rfl, rfl, rfl⟩, ⟨rfl, rfl, rfl⟩, ⟨rfl, rfl, rfl⟩, by decide, by decide, by decide, by decide⟩

theorem wit_IllegalCommandIsReported :
    Offers (offering .transaction 0x05 State.reset) 0x05 [] ∧ 5 ≤ ((0x05#72).extractLsb' 0 3).toNat ∧
      Offers (offering .transaction 0x08 State.reset) 0x08 [] ∧ (0x08#72).extractLsb' 3 5 ≠ 0 :=
  ⟨⟨rfl, rfl, rfl⟩, by decide, ⟨rfl, rfl, rfl⟩, by decide⟩

/-- A response that waits, taken or not. -/
def waiting (ready : Bool) : State :=
  { State.reset with
    block := { Block.reset with phase := .rsp, rspStatus := 1 }
    chan := { rst := false, rspReady := ready, offered := [0x00], taken := [] } }

theorem wit_HandOffKeepsResponseRegisters :
    (waiting true).chan.rst = false ∧ (waiting true).block.phase = .rsp ∧ (waiting true).chan.rspReady = true ∧
      step (waiting true) = .next (waiting true).handOff ∧ (waiting true).handOff.block.phase ≠ .rsp :=
  ⟨rfl, rfl, rfl, rfl, by decide⟩

theorem wit_WaitingChangesNothing :
    (State.reset.chan.rst = false ∧ State.reset.block.phase = .idle ∧ State.reset.cmdValid = false) ∧
      ((waiting false).chan.rst = false ∧ (waiting false).block.phase = .rsp ∧
        (waiting false).chan.rspReady = false) := by decide

/-- Reset in the middle of a command, with a word offered. -/
theorem wit_ResetClearsTheBlock :
    ({ waiting true with chan := { (waiting true).chan with rst := true } } : State).chan.rst = true ∧
      (stepped { waiting true with chan := { (waiting true).chan with rst := true } }).block = Block.reset := by decide

theorem wit_ResetStateIsReady : State.reset.block = Block.reset ∧ State.reset.chan.rst = false := by decide

theorem wit_ErrorIsNotSticky :
    (waiting true).chan.rst = false ∧ (waiting true).block.phase = .rsp ∧ (waiting true).chan.rspReady = true ∧
      (waiting true).level = .transaction ∧ (waiting true).chan.offered = [0x00] ∧
      decode 0x00 = .ok (.encOne 0 0) ∧ (waiting true).block.rspStatus = 1 := by decide

/-! Blocks in the middle of a command. -/

/-- ENC_MANY of two values, between values. -/
def encBetween (k : BitVec 32) : Block := { Block.reset with phase := .enc, cmdOp := 1, cmdCount := 2, seqK := k }

/-- ENC_ONE with a value in flight. -/
def encFlight (r : U64) : Block := { Block.reset with phase := .enc, encActive := true, encRem := r }

/-- A decode command, with a value in flight or not. -/
def decAt (op : BitVec 3) (len count k pos : BitVec 32) (active : Bool) (acc : U64) (idx : BitVec 4) : Block :=
  { Block.reset with
    phase := .dec, cmdOp := op, cmdLen := len, cmdCount := count, seqK := k, pos := pos
    decActive := active, decAcc := acc, decIdx := idx }

/-- Every port that is on is on somewhere. -/
theorem wit_PortOutputsFollowPhase :
    (running (encBetween 0) [] [5]).ports.vinRd = some 0 ∧
      (running (encFlight 300) [] []).ports.outWr = some (0, 0xAC) ∧
      (running (decAt 4 2 0 0 0 false 0 0) [5, 6] []).ports.inRd = some 0 ∧
      (running (decAt 4 2 0 0 0 false 0 0) [5, 6] []).ports.voutWr = some (0, 5) ∧
      (running (decAt 4 2 0 0 2 false 0 0) [5, 6] []).ports.inRd = none := by decide

theorem wit_EncoderFetchesOrFinishes :
    (running (encBetween 1) [] [5, 6]).chan.rst = false ∧ (running (encBetween 1) [] [5, 6]).block.phase = .enc ∧
      (running (encBetween 1) [] [5, 6]).block.encActive = false ∧ (encBetween 1).seqK ≠ (encBetween 1).encodeCount ∧
      (encBetween 2).seqK = (encBetween 2).encodeCount := by decide

theorem wit_EncoderEmitsOneByte :
    (running (encFlight 128) [] []).chan.rst = false ∧ (running (encFlight 128) [] []).block.phase = .enc ∧
      (running (encFlight 128) [] []).block.encActive = true ∧ (encFlight 128).encRem >>> 7 ≠ 0 ∧
      (encFlight 127).encRem >>> 7 = 0 := by decide

/-- Done for each decode opcode, the end of the input, and a byte of each kind at the group indexes 9 and 10. -/
theorem wit_DecoderConsumesOneByte :
    (decAt 2 1 0 1 1 false 0 0).decodeDone = true ∧ (decAt 3 1 1 1 1 false 0 0).decodeDone = true ∧
      (decAt 4 1 0 1 1 false 0 0).decodeDone = true ∧
      ((decAt 3 1 2 1 1 false 0 0).decodeDone = false ∧ (decAt 3 1 2 1 1 false 0 0).pos = 1) ∧
      (stepped (running (decAt 4 11 0 0 9 true 0 9) (List.replicate 9 0x80 ++ [0xFF, 0x01]) [])).block
        = decAt 4 11 0 0 10 true 0x8000000000000000 10 ∧
      (stepped (running (decAt 4 11 0 0 10 true 7 10) (List.replicate 10 0x80 ++ [0x01]) [])).buf.vout = [(0, 7)] := by
  decide

theorem wit_BuffersChangeOnlyThroughPorts :
    (running (encFlight 300) [] []).level = .microStep ∧ (running (encFlight 300) [] []).buf.wf = true ∧
      step (running (encFlight 300) [] []) = .next (stepped (running (encFlight 300) [] [])) ∧
      (stepped (running (encFlight 300) [] [])).buf.out = [(0, 0xAC)] :=
  ⟨rfl, by decide, rfl, by decide⟩

theorem wit_WritesPrecedeTheResponse :
    (running (encBetween 2) [] []).level = .microStep ∧
      step (running (encBetween 2) [] []) = .next (stepped (running (encBetween 2) [] [])) ∧
      (running (encBetween 2) [] []).block.phase ≠ .rsp ∧
      (stepped (running (encBetween 2) [] [])).block.phase = .rsp :=
  ⟨rfl, rfl, by decide, by decide⟩

theorem wit_ResponseIsHeld :
    (waiting false).ports.rspValid = true ∧ (waiting false).chan.rspReady = false ∧
      run 2 (waiting false) = .next (waiting false) :=
  ⟨by decide, by decide, rfl⟩

/-- Status 0, 1 in the decoder's own step, 1 in a whole command, and 3, each written over another. -/
theorem wit_StatusCodesAreWrittenByTheirCommands :
    (stepped (running { encBetween 2 with rspStatus := 1 } [] [])).block.rspStatus = 0 ∧
      (stepped (running (decAt 2 0 0 0 0 false 0 0) [] [])).block.rspStatus = 1 ∧
      (stepped (offering .transaction 0x02 State.reset)).block.rspStatus = 1 ∧
      (stepped (offering .transaction 0x05 State.reset)).block.rspStatus = 3 := by decide

theorem wit_EncoderLevelsAgree :
    Offers (offering .microStep 0x000000020000000001 (preset [] [0, 128])) 0x000000020000000001 [] ∧
      (offering .microStep 0x000000020000000001 (preset [] [0, 128])).level = .microStep ∧
      decode 0x000000020000000001 = .ok (.encMany 0 2) ∧ (Instr.encMany 0 2).opcode.toNat ≤ 1 :=
  ⟨⟨rfl, rfl, rfl⟩, rfl, by decide, by decide⟩

/-- The step counts of 95_test_vectors.md, sections 2.2 and 2.3 (the accept step included). -/
theorem test_step_counts :
    1 + encodeSteps [0, 128] = 7 ∧ 1 + encodeSteps [0xFFFFFFFFFFFFFFFF] = 13 ∧
      1 + decodeSteps (after (.decOne 3 0) (preset [0xAC, 0x02, 0x7F] [])) = 4 ∧
      1 + decodeSteps (after (.decFixed 2 2) (preset [0x00, 0x80] [])) = 4 := by decide

theorem wit_DecoderLevelsAgree :
    Offers (offering .microStep 0x000000000000000304 (preset [0x00, 0x80, 0x01] [])) 0x000000000000000304 [] ∧
      (offering .microStep 0x000000000000000304 (preset [0x00, 0x80, 0x01] [])).level = .microStep ∧
      decode 0x000000000000000304 = .ok (.decAll 3 0) ∧ 2 ≤ (Instr.decAll 3 0).opcode.toNat ∧
      ∃ t, exec (.decAll 3 0) (offering .microStep 0x000000000000000304 (preset [0x00, 0x80, 0x01] [])).popCommand
        = .next t :=
  ⟨⟨rfl, rfl, rfl⟩, rfl, by decide, by decide, ⟨_, rfl⟩⟩

/-- The invariant in the middle of an encode command that emits a byte. -/
theorem wit_Inv_encoding : (running (encFlight 300) [] []).Inv :=
  ⟨by decide, by constructor <;> decide⟩

/-- The invariant in the middle of a decode command that reads a byte. -/
theorem wit_Inv_decoding : (running (decAt 3 3 2 1 2 true 0 1) [0x00, 0x80, 0x01] []).Inv :=
  ⟨by decide, by constructor <;> decide⟩

theorem wit_StepKeepsInvariant :
    (running (encFlight 300) [] []).Inv ∧
      step (running (encFlight 300) [] []) = .next (stepped (running (encFlight 300) [] [])) :=
  ⟨wit_Inv_encoding, rfl⟩

/-- Reset, one step and one host move. -/
theorem wit_ReachableStatesSatisfyInvariant :
    (HostMove.placeIn 0 5).allowed State.reset = true ∧ Reachable ((HostMove.placeIn 0 5).apply State.reset) ∧
      (HostMove.placeOut 0 5).allowed (waiting true) = false :=
  ⟨by decide, .host _ .reset (by decide), by decide⟩

theorem wit_DecoderReadsInputInOrder :
    (running (decAt 3 3 2 1 2 true 0 1) [0x00, 0x80, 0x01] []).Inv ∧
      (running (decAt 3 3 2 1 2 true 0 1) [0x00, 0x80, 0x01] []).ports.inRd = some 2 ∧
      ∃ t, step (running (decAt 3 3 2 1 2 true 0 1) [0x00, 0x80, 0x01] []) = .next t :=
  ⟨wit_Inv_decoding, by decide, step_next _⟩

/-- A byte after which the value goes on, and one that ends it. -/
theorem wit_EncoderCountersNeverWrap :
    (running (encFlight 300) [] []).Inv ∧ (running (encFlight 300) [] []).ports.outWr = some (0, 0xAC) ∧
      (stepped (running (encFlight 300) [] [])).block.encActive = true ∧
      (stepped (running (encFlight 2) [] [])).block.encActive = false :=
  ⟨wit_Inv_encoding, by decide, by decide, by decide⟩

theorem wit_InstancesShareNoState : 1 < (System.reset 2).length ∧ (System.reset 2)[1]? = some State.reset := by decide

end Sys2Proof.Tests
end

/-! ## Command words: what the decoder answers, and the fields it keeps -/
section

namespace Sys2Proof

/-- Legality of a record of fields as a proposition (10_state.md R36). -/
theorem CommandFields.legal_iff (f : CommandFields) : f.legal = true ↔ f.op.toNat ≤ 4 ∧ f.rsvd = 0 := by
  rw [CommandFields.legal, Bool.and_eq_true, f.opLegal_iff, f.rsvdLegal_iff]

/-- `CommandFields.legal_iff` at the bits of a command word (30_encoding.md R77). -/
theorem legal_splitWord_iff (w : CmdWord) :
    (splitWord w).legal = true ↔ (w.extractLsb' 0 3).toNat ≤ 4 ∧ w.extractLsb' 3 5 = 0 :=
  CommandFields.legal_iff (splitWord w)

/-- Legal fields select a command that stands for exactly these fields (30_encoding.md R79 to R84). -/
theorem decodeFields_of_legal {f : CommandFields} (h : f.legal = true) :
    ∃ i, decodeFields f = .ok i ∧ i.fields = f := by
  obtain ⟨op, rsvd, len, count⟩ := f
  obtain ⟨hop, hrsvd⟩ := (CommandFields.legal_iff _).1 h
  simp only at hop hrsvd
  subst hrsvd
  have hcases : op = 0 ∨ op = 1 ∨ op = 2 ∨ op = 3 ∨ op = 4 := by bv_omega
  obtain rfl | rfl | rfl | rfl | rfl := hcases
  · exact ⟨.encOne len count, rfl, rfl⟩
  · exact ⟨.encMany len count, rfl, rfl⟩
  · exact ⟨.decOne len count, rfl, rfl⟩
  · exact ⟨.decFixed len count, rfl, rfl⟩
  · exact ⟨.decAll len count, rfl, rfl⟩

/-- Fields that are not legal are rejected (30_encoding.md R85). -/
theorem decodeFields_of_not_legal {f : CommandFields} (h : ¬ f.legal = true) :
    ∃ e, decodeFields f = .error e := by
  by_cases hop : f.opLegal = true
  · have hrsvd : ¬ f.rsvdLegal = true := fun hr => h (by rw [CommandFields.legal, hop, hr]; rfl)
    exact ⟨.reservedBits f.rsvd, by rw [decodeFields, if_neg (not_not.2 hop), if_pos hrsvd]⟩
  · exact ⟨.reservedOpcode f.op, by rw [decodeFields, if_pos hop]⟩

/-- Everything the decoder can do with a word: a legal one gives a command that keeps its fields, any other one is
rejected. -/
theorem decode_cases (w : CmdWord) :
    ((splitWord w).legal = true ∧ ∃ i, decode w = .ok i ∧ i.fields = splitWord w) ∨
    ((splitWord w).legal = false ∧ ∃ e, decode w = .error e) := by
  cases h : (splitWord w).legal
  · exact .inr ⟨rfl, decodeFields_of_not_legal (by simp [h])⟩
  · exact .inl ⟨rfl, decodeFields_of_legal h⟩

theorem decode_ok_iff_legal (w : CmdWord) : (∃ i, decode w = .ok i) ↔ (splitWord w).legal = true := by
  obtain ⟨hl, i, hi, -⟩ | ⟨hl, e, he⟩ := decode_cases w
  · simp [hl, hi]
  · simp [hl, he]

theorem decode_error_iff_not_legal (w : CmdWord) :
    (∃ e, decode w = .error e) ↔ ¬ (splitWord w).legal = true := by
  obtain ⟨hl, i, hi, -⟩ | ⟨hl, e, he⟩ := decode_cases w
  · simp [hl, hi]
  · simp [hl, he]

/-- A decoded command stands for the fields of its word. -/
theorem fields_of_decode {w : CmdWord} {i : Instr} (h : decode w = .ok i) : i.fields = splitWord w := by
  obtain ⟨-, j, hj, hf⟩ | ⟨-, e, he⟩ := decode_cases w
  · obtain rfl : i = j := by simpa [h] using hj
    exact hf
  · simp [h] at he

theorem opcode_of_decode {w : CmdWord} {i : Instr} (h : decode w = .ok i) : i.opcode = opField w :=
  congrArg CommandFields.op (fields_of_decode h)

theorem len_of_decode {w : CmdWord} {i : Instr} (h : decode w = .ok i) : i.len = lenField w :=
  congrArg CommandFields.len (fields_of_decode h)

theorem count_of_decode {w : CmdWord} {i : Instr} (h : decode w = .ok i) : i.count = countField w :=
  congrArg CommandFields.count (fields_of_decode h)

/-- Settles O3: the decoder accepts exactly the legal words and rejects every other. -/
theorem decoderAcceptsExactlyLegalWords : Obligations.DecoderAcceptsExactlyLegalWords := by
  unfold Obligations.DecoderAcceptsExactlyLegalWords
  intro w
  constructor
  · rw [decode_ok_iff_legal, legal_splitWord_iff]
  · rw [decode_error_iff_not_legal, legal_splitWord_iff, not_and_or, Nat.not_le, Nat.lt_iff_add_one_le]

end Sys2Proof
end

/-! ## The output ports: when each of them is on -/
section

namespace Sys2Proof.Machine

section
variable (s : State)

/-- Reset hides both handshakes (10_state.md R37). -/
theorem State.ports_of_reset (h : s.chan.rst = true) :
    s.ports.cmdReady = false ∧ s.ports.rspValid = false := by
  simp [State.ports, h]

theorem State.ports_cmdReady_iff :
    s.ports.cmdReady = true ↔ s.chan.rst = false ∧ s.block.phase = .idle := by
  simp [State.ports]

theorem State.ports_rspValid_iff :
    s.ports.rspValid = true ↔ s.chan.rst = false ∧ s.block.phase = .rsp := by
  simp [State.ports]

/-- The response registers show on `rsp_word` in every phase out of reset (10_state.md R37). -/
theorem State.ports_rspWord (h : s.chan.rst = false) : s.ports.rspWord = some s.block.rspWord := by
  simp [State.ports, h]

/-- The encoder reads VIN exactly in its fetch step (40_encoder.md R104). -/
theorem State.ports_vinRd_iff :
    s.ports.vinRd ≠ none ↔ s.chan.rst = false ∧ s.block.phase = .enc ∧ s.block.encActive = false ∧
      s.block.seqK ≠ s.block.encodeCount := by
  simp [State.ports, and_assoc]

/-- The encoder writes OUT exactly in its byte step (40_encoder.md R105). -/
theorem State.ports_outWr_iff :
    s.ports.outWr ≠ none ↔ s.chan.rst = false ∧ s.block.phase = .enc ∧ s.block.encActive = true := by
  simp [State.ports, and_assoc]

/-- The decoder reads IN exactly in branch (c) of its step (41_decoder.md R130). -/
theorem State.ports_inRd_iff :
    s.ports.inRd ≠ none ↔ s.chan.rst = false ∧ s.block.phase = .dec ∧ s.block.decodeDone = false ∧
      s.block.pos ≠ s.block.cmdLen := by
  simp [State.ports, Block.decConsumes, and_assoc]

/-- The decoder writes VOUT exactly when the byte it consumes ends a value (41_decoder.md R130). -/
theorem State.ports_voutWr_iff :
    s.ports.voutWr ≠ none ↔ s.ports.inRd ≠ none ∧ contBitOf s.decByte = false := by
  simp [State.ports, and_assoc]

/-- A block that waits for a command accesses no buffer. -/
theorem State.ports_no_access_of_idle (h : s.block.phase = .idle) :
    s.ports.inRd = none ∧ s.ports.vinRd = none ∧ s.ports.outWr = none ∧ s.ports.voutWr = none := by
  simp [State.ports, h]

end

/-- Settles O39: each port by the lemma about it. -/
theorem portOutputsFollowPhase : Obligations.PortOutputsFollowPhase := by
  unfold Obligations.PortOutputsFollowPhase
  intro s
  have hready (hr : s.chan.rst = false) : s.ports.cmdReady = true ↔ s.block.phase = .idle := by
    rw [s.ports_cmdReady_iff, and_iff_right hr]
  have hvalid (hr : s.chan.rst = false) : s.ports.rspValid = true ↔ s.block.phase = .rsp := by
    rw [s.ports_rspValid_iff, and_iff_right hr]
  exact ⟨s.ports_of_reset, fun hr => ⟨hready hr, hvalid hr, s.ports_rspWord hr⟩, s.ports_vinRd_iff,
    s.ports_outWr_iff, s.ports_inRd_iff, s.ports_voutWr_iff⟩

end Sys2Proof.Machine
end

/-! ## The accept step -/
section

namespace Sys2Proof.Claims

open Sys2Proof.Machine

section
variable {s : State} {w : CmdWord} {rest : List CmdWord}

/-- An offered word transfers (10_state.md R39). -/
theorem Offers.activity_eq (h : Offers s w rest) : activity s = transferOf w := by
  obtain ⟨hr, hp, ho⟩ := h
  simp [activity, hr, hp, ho]

/-- The channel once the offered word has left it. -/
theorem Offers.popCommand_chan (h : Offers s w rest) :
    s.popCommand.chan = { s.chan with offered := rest } := by
  obtain ⟨-, -, ho⟩ := h
  simp [ho]

/-- At the micro-step level a legal word is only accepted (10_state.md R40, log 4). -/
theorem Offers.step_microStep (h : Offers s w rest) {i : Instr} (hd : decode w = .ok i)
    (hl : s.level = .microStep) : step s = .next (s.popCommand.accept i) := by
  simp [step, h.activity_eq, transferOf, hd, hl]

/-- At either level an illegal word is answered in its accept step (60_exceptions.md R152). -/
theorem Offers.step_illegal (h : Offers s w rest) {e : DecodeError} (hd : decode w = .error e) :
    step s = .next (s.popCommand.acceptIllegal w) := by
  simp [step, h.activity_eq, transferOf, hd]

end

/-- The answer to an illegal word is `(3, 0, 0, 0)` (60_exceptions.md R152). -/
theorem responds_acceptIllegal (w : CmdWord) (s : State) : Responds (s.acceptIllegal w) 3 0 0 0 :=
  ⟨rfl, rfl, rfl, rfl, rfl⟩

/-- Settles O32: the accept step of a legal word is `State.accept`, that of an illegal one `State.acceptIllegal`, and
both start from the same latched registers. -/
theorem acceptLatchesTheCommand : Obligations.AcceptLatchesTheCommand := by
  unfold Obligations.AcceptLatchesTheCommand
  intro s w rest h hl
  have ⟨_, hidle, _⟩ := h
  have hquiet := s.ports_no_access_of_idle hidle
  rw [← legal_splitWord_iff]
  obtain ⟨hlegal, i, hd, -⟩ | ⟨hlegal, e, hd⟩ := decode_cases w
  · have hphase : (s.popCommand.accept i).block.phase
        = if (w.extractLsb' 0 3).toNat ≤ 1 then .enc else .dec := by
      rw [State.accept_block, opcode_of_decode hd, opField]
    exact ⟨s.popCommand.accept i, h.step_microStep hd hl, h.popCommand_chan, rfl, rfl,
      opcode_of_decode hd, len_of_decode hd, count_of_decode hd, rfl, rfl, rfl, rfl, rfl, rfl, rfl, rfl,
      fun _ => ⟨hphase, rfl⟩, fun hn => absurd hlegal hn, hquiet⟩
  · exact ⟨s.popCommand.acceptIllegal w, h.step_illegal hd, h.popCommand_chan, rfl, rfl,
      rfl, rfl, rfl, rfl, rfl, rfl, rfl, rfl, rfl, rfl, rfl,
      fun ht => absurd ht (by simp [hlegal]), fun _ => responds_acceptIllegal w s.popCommand, hquiet⟩

end Sys2Proof.Claims
end

/-! ## The bytes of an encoding: what each of them carries -/
section

namespace Sys2Proof.Machine

section
variable {r : U64}

/-- The loop ends with the byte that leaves nothing over (40_encoder.md R100). -/
theorem encodeLoop_of_last (fuel : Nat) (h : r >>> 7 = 0) : encodeLoop (fuel + 1) r = [groupByte r false] :=
  if_pos h

/-- The loop goes on with what the low group leaves over (40_encoder.md R100). -/
theorem encodeLoop_of_more (fuel : Nat) (h : r >>> 7 ≠ 0) :
    encodeLoop (fuel + 1) r = groupByte r true :: encodeLoop fuel (r >>> 7) :=
  if_neg h

theorem encodeLoop_length_pos {fuel : Nat} (hf : fuel ≠ 0) (r : U64) : 0 < (encodeLoop fuel r).length := by
  obtain ⟨n, rfl⟩ := Nat.exists_eq_succ_of_ne_zero hf
  by_cases h : r >>> 7 = 0
  · simp [encodeLoop_of_last n h]
  · simp [encodeLoop_of_more n h]

/-- Each byte takes seven bits off the remaining value, so the fuel lasts. -/
theorem shiftGroup_lt {fuel : Nat} (hr : r.toNat < 2 ^ (7 * (fuel + 1))) : (r >>> 7).toNat < 2 ^ (7 * fuel) := by
  rw [BitVec.toNat_ushiftRight, Nat.shiftRight_eq_div_pow]
  exact Nat.div_lt_of_lt_mul (by rwa [← pow_add, Nat.add_comm])

/-- With fuel enough for its value, the loop emits as byte `j` the group that `7j` shifts bring down, marked exactly
when more bytes follow. -/
theorem encodeLoop_getElem {fuel : Nat} (hr : r.toNat < 2 ^ (7 * fuel)) (j : Nat)
    (hj : j < (encodeLoop fuel r).length) :
    (encodeLoop fuel r)[j] = groupByte (r >>> (7 * j)) (decide (j + 1 < (encodeLoop fuel r).length)) := by
  induction fuel generalizing r j with
  | zero => exact absurd hj (Nat.not_lt_zero j)
  | succ fuel ih =>
    by_cases h : r >>> 7 = 0
    · simp only [encodeLoop_of_last fuel h, List.length_singleton, Nat.lt_one_iff] at hj ⊢
      simp [hj]
    · have hrest := shiftGroup_lt hr
      simp only [encodeLoop_of_more fuel h, List.length_cons] at hj ⊢
      cases j with
      | zero =>
        have hfuel : fuel ≠ 0 := by
          rintro rfl
          exact h (BitVec.eq_of_toNat_eq (Nat.lt_one_iff.1 hrest))
        simp [encodeLoop_length_pos hfuel (r >>> 7)]
      | succ j =>
        have hshift : r >>> (7 * (j + 1)) = r >>> 7 >>> (7 * j) := by
          rw [← BitVec.shiftRight_add, Nat.mul_succ, Nat.add_comm]
        simp [hshift, ih hrest]

end

/-- The value 0 needs no case of its own: the loop emits the same byte (40_encoder.md R100). -/
theorem encodeOne_eq_encodeLoop (v : U64) : encodeOne v = encodeLoop Config.maxEncLen v := by
  by_cases h : v = 0
  · subst h
    rfl
  · exact if_neg h

/-- Ten bytes of fuel cover 64 bits, so the loop's bytes are the encoding's (40_encoder.md R101). -/
theorem encodeOne_getElem (v : U64) (j : Nat) (hj : j < (encodeOne v).length) :
    (encodeOne v)[j] = groupByte (v >>> (7 * j)) (decide (j + 1 < (encodeOne v).length)) := by
  have hv : v.toNat < 2 ^ (7 * Config.maxEncLen) := v.isLt.trans (by decide)
  simp only [encodeOne_eq_encodeLoop] at hj ⊢
  exact encodeLoop_getElem hv j hj

/-- The low group of a shifted value is the group of the value at that offset. -/
theorem lowGroup_shiftRight (v : U64) (n : Nat) : (v >>> n).extractLsb' 0 7 = v.extractLsb' n 7 := by
  ext i hi
  simp

/-- Settles O7: byte `j` is the group byte of `v >>> 7j`, marked when more bytes follow; its two fields are those of a
group byte. -/
theorem encodedByteCarriesItsGroup : Obligations.EncodedByteCarriesItsGroup := by
  unfold Obligations.EncodedByteCarriesItsGroup
  intro v j hj
  rw [encodeOne_getElem v j hj]
  constructor
  · rw [groupByte_group, lowGroup_shiftRight]
  · rw [← contBitOf, contBitOf_groupByte, decide_eq_true_iff]

end Sys2Proof.Machine
end

/-! ## Command words: the low byte selects the command -/
section

namespace Sys2Proof

/-- The decoder reads back the fields every command stands for (30_encoding.md R79 to R84). -/
theorem decodeFields_fields (i : Instr) : decodeFields i.fields = .ok i := by
  cases i <;> rfl

/-- A word decodes to a command exactly when it holds that command's fields. -/
theorem decode_eq_ok_iff {w : CmdWord} {i : Instr} : decode w = .ok i ↔ i.fields = splitWord w := by
  constructor
  · exact fields_of_decode
  · intro h
    rw [decode, ← h, decodeFields_fields]

theorem fields_eq_splitWord_iff {w : CmdWord} {i : Instr} :
    i.fields = splitWord w ↔
      (i.opcode = opField w ∧ 0 = rsvdField w) ∧ i.len = lenField w ∧ i.count = countField w := by
  simp [Instr.fields, splitWord, and_assoc]

/-- The low byte is an opcode number exactly when `OP` is that opcode and `RSVD` is 0 (30_encoding.md R77). -/
theorem lowByte_eq_setWidth_iff {w : CmdWord} {op : BitVec 3} :
    w.extractLsb' 0 8 = op.setWidth 8 ↔ op = opField w ∧ 0 = rsvdField w := by
  have hbyte := lowByte_toNat w
  bv_omega

/-- For a command with the operand fields of the word, the low byte alone decides (30_encoding.md R80 to R84). -/
theorem lowByte_eq_opcode_iff_decode {w : CmdWord} (i : Instr) (hlen : i.len = lenField w)
    (hcount : i.count = countField w) :
    w.extractLsb' 0 8 = i.opcode.setWidth 8 ↔ decode w = .ok i := by
  rw [decode_eq_ok_iff, fields_eq_splitWord_iff, lowByte_eq_setWidth_iff]
  exact (and_iff_left ⟨hlen, hcount⟩).symm

/-- Settles O4: each command, with the operand fields of the word, is selected by its opcode in the low byte. -/
theorem lowByteSelectsCommand : Obligations.LowByteSelectsCommand := by
  unfold Obligations.LowByteSelectsCommand
  intro w
  exact ⟨lowByte_eq_opcode_iff_decode (.encOne _ _) rfl rfl, lowByte_eq_opcode_iff_decode (.encMany _ _) rfl rfl,
    lowByte_eq_opcode_iff_decode (.decOne _ _) rfl rfl, lowByte_eq_opcode_iff_decode (.decFixed _ _) rfl rfl,
    lowByte_eq_opcode_iff_decode (.decAll _ _) rfl rfl⟩

end Sys2Proof
end

/-! ## The response word: where its fields lie -/
section

namespace Sys2Proof.Machine

/-- Concatenation as a number, in the form `omega` reads. -/
theorem append_toNat {m k : Nat} (hi : BitVec m) (lo : BitVec k) :
    (hi ++ lo).toNat = hi.toNat * 2 ^ k + lo.toNat := by
  rw [BitVec.toNat_append, ← Nat.shiftLeft_add_eq_or_of_lt lo.isLt, Nat.shiftLeft_eq]

section
variable (st : BitVec 2) (c n : BitVec 32) (nb : BitVec 36)

/-- The sum of 30_encoding.md R86 puts its terms side by side, with a zero field of six bits over the status. -/
theorem pack_eq_append : pack st c n nb = nb ++ n ++ c ++ (0 : BitVec 6) ++ st := by
  apply BitVec.eq_of_toNat_eq
  have hzero : (0 : BitVec 6).toNat = 0 := rfl
  simp only [pack_toNat, append_toNat, hzero]
  omega

theorem pack_status : (pack st c n nb).extractLsb' 0 2 = st := by
  rw [pack_eq_append]
  exact BitVec.extractLsb'_append_eq_right

theorem pack_reserved : (pack st c n nb).extractLsb' 2 6 = 0 := by
  rw [pack_eq_append, BitVec.extractLsb'_append_eq_of_le (by decide)]
  exact BitVec.extractLsb'_append_eq_right

theorem pack_consumed : (pack st c n nb).extractLsb' 8 32 = c := by
  rw [pack_eq_append, BitVec.extractLsb'_append_eq_of_le (by decide), BitVec.extractLsb'_append_eq_of_le (by decide)]
  exact BitVec.extractLsb'_append_eq_right

theorem pack_nvalues : (pack st c n nb).extractLsb' 40 32 = n := by
  rw [pack_eq_append, BitVec.extractLsb'_append_eq_of_le (by decide), BitVec.extractLsb'_append_eq_of_le (by decide),
    BitVec.extractLsb'_append_eq_of_le (by decide)]
  exact BitVec.extractLsb'_append_eq_right

theorem pack_nbytes : (pack st c n nb).extractLsb' 72 36 = nb := by
  rw [pack_eq_append, BitVec.extractLsb'_append_eq_of_le (by decide), BitVec.extractLsb'_append_eq_of_le (by decide),
    BitVec.extractLsb'_append_eq_of_le (by decide)]
  exact BitVec.extractLsb'_append_eq_left

end

/-- Settles O6: the response word is `pack` of the four response registers; its fields are those of `pack`. -/
theorem responseWordFields : Obligations.ResponseWordFields := by
  unfold Obligations.ResponseWordFields
  constructor
  · intro b
    exact ⟨pack_status .., pack_reserved .., pack_consumed .., pack_nvalues .., pack_nbytes ..⟩
  · exact pack_toNat

end Sys2Proof.Machine
end

/-! ## The encoder's micro-step: finish, fetch, emit -/
section

namespace Sys2Proof.Machine

section
variable {s : State}

/-- In `ENC` out of reset the encoder steps, at either level (10_state.md R39). -/
theorem step_of_enc (hr : s.chan.rst = false) (hp : s.block.phase = .enc) : step s = .next (encStep s) := by
  simp [step, activity, hr, hp]

/-- With every value encoded and none in flight, the encoder finishes (40_encoder.md R104). -/
theorem encStep_of_done (ha : s.block.encActive = false) (hk : s.block.seqK = s.block.encodeCount) :
    encStep s = { s with block := s.block.finish statusOk 0 s.block.seqK s.block.nbytes } := by
  obtain ⟨-, -, h⟩ | ⟨-, hk', -⟩ | ⟨ha', -⟩ := encStep_cases s
  · exact h
  · exact absurd hk hk'
  · simp [ha] at ha'

/-- With values left and none in flight, the encoder fetches the next one (40_encoder.md R104). -/
theorem encStep_of_fetch (ha : s.block.encActive = false) (hk : s.block.seqK ≠ s.block.encodeCount) :
    encStep s = { s with block := { s.block with
      encRem := Memory.read s.buf.vin s.block.seqK.toNat, encActive := true } } := by
  obtain ⟨-, hk', -⟩ | ⟨-, -, h⟩ | ⟨ha', -⟩ := encStep_cases s
  · exact absurd hk' hk
  · exact h
  · simp [ha] at ha'

/-- With a value in flight, the encoder emits one byte of it (40_encoder.md R105). -/
theorem encStep_of_active (ha : s.block.encActive = true) :
    encStep s = { s with
      block := { s.block with
        nbytes := s.block.nbytes + 1
        encRem := s.block.encRem >>> 7
        encActive := decide (s.block.encRem >>> 7 ≠ 0)
        seqK := if s.block.encRem >>> 7 = 0 then s.block.seqK + 1 else s.block.seqK }
      buf := { s.buf with out := Memory.write s.buf.out s.block.nbytes.toNat s.block.encByte } } := by
  obtain ⟨ha', -⟩ | ⟨ha', -⟩ | ⟨-, h⟩ := encStep_cases s
  · simp [ha] at ha'
  · simp [ha] at ha'
  · exact h

/-- The encoder reads no value once all are encoded (40_encoder.md R104). -/
theorem State.ports_vinRd_of_done (hk : s.block.seqK = s.block.encodeCount) : s.ports.vinRd = none := by
  by_contra h
  obtain ⟨-, -, -, hk'⟩ := s.ports_vinRd_iff.1 h
  exact hk' hk

/-- The encoder writes no byte between values (40_encoder.md R104). -/
theorem State.ports_outWr_of_inactive (ha : s.block.encActive = false) : s.ports.outWr = none := by
  by_contra h
  obtain ⟨-, -, ha'⟩ := s.ports_outWr_iff.1 h
  simp [ha] at ha'

/-- The fetch reads `VIN[SEQ_K]` (40_encoder.md R104). -/
theorem State.ports_vinRd_of_fetch (hr : s.chan.rst = false) (hp : s.block.phase = .enc)
    (ha : s.block.encActive = false) (hk : s.block.seqK ≠ s.block.encodeCount) :
    s.ports.vinRd = some s.block.seqK := by
  simp [State.ports, hr, hp, ha, hk]

/-- The emitted byte goes to `OUT[NBYTES]` (40_encoder.md R105). -/
theorem State.ports_outWr_of_active (hr : s.chan.rst = false) (hp : s.block.phase = .enc)
    (ha : s.block.encActive = true) : s.ports.outWr = some (s.block.nbytes, s.block.encByte) := by
  simp [State.ports, hr, hp, ha]

end

/-- The emitted byte: the low group, marked exactly when something remains (40_encoder.md R105). -/
theorem Block.encByte_eq (b : Block) :
    b.encByte = ((b.encRem.extractLsb' 0 7).setWidth 8 ||| if b.encRem >>> 7 ≠ 0 then 0x80#8 else 0x00#8) := by
  simp [Block.encByte, groupByte]

/-- Settles O40: between values the encoder finishes or fetches, as `SEQ_K` has reached the count or not. -/
theorem encoderFetchesOrFinishes : Obligations.EncoderFetchesOrFinishes := by
  unfold Obligations.EncoderFetchesOrFinishes
  intro s hr hp ha m hm
  obtain rfl : m = s.block.encodeCount := hm
  have hquiet := State.ports_outWr_of_inactive ha
  constructor
  · intro hk
    have hstep := (step_of_enc hr hp).trans (congrArg _ (encStep_of_done ha hk))
    exact ⟨hstep, State.ports_vinRd_of_done hk, hquiet⟩
  · intro hk
    have hstep := (step_of_enc hr hp).trans (congrArg _ (encStep_of_fetch ha hk))
    exact ⟨hstep, State.ports_vinRd_of_fetch hr hp ha hk, hquiet⟩

/-- Settles O41: the step is the emitting one, its byte is `Block.encByte`; the value ends or stays in flight as the
shifted remainder is 0 or not. -/
theorem encoderEmitsOneByte : Obligations.EncoderEmitsOneByte := by
  unfold Obligations.EncoderEmitsOneByte
  intro s hr hp ha r b hrem hb
  subst hrem
  obtain rfl : b = s.block.encByte := hb.trans s.block.encByte_eq.symm
  have hstep := (step_of_enc hr hp).trans (congrArg _ (encStep_of_active ha))
  refine ⟨_, hstep, rfl, State.ports_outWr_of_active hr hp ha, rfl, rfl, fun hlast => ?_, fun hmore => ?_⟩
  · simp [hlast]
  · simpa [ha] using hmore

end Sys2Proof.Machine
end

/-! ## The encode commands: what they write and what they answer -/
section

namespace Sys2Proof.Machine

theorem encodeLoop_length_le (fuel : Nat) (r : U64) : (encodeLoop fuel r).length ≤ fuel := by
  induction fuel generalizing r with
  | zero => exact Nat.le_refl 0
  | succ fuel ih =>
    by_cases h : r >>> 7 = 0
    · simp [encodeLoop_of_last fuel h]
    · simp [encodeLoop_of_more fuel h, ih]

/-- One encoded value takes at most ten bytes (40_encoder.md R101). -/
theorem encodeOne_length_le (v : U64) : (encodeOne v).length ≤ 10 := by
  rw [encodeOne_eq_encodeLoop]
  exact encodeLoop_length_le Config.maxEncLen v

/-- One encoded value takes at least one byte (40_encoder.md R101). -/
theorem encodeOne_length_pos (v : U64) : 0 < (encodeOne v).length := by
  rw [encodeOne_eq_encodeLoop]
  exact encodeLoop_length_pos (by decide) v

theorem encodeMany_cons (v : U64) (vs : List U64) : encodeMany (v :: vs) = encodeOne v ++ encodeMany vs := rfl

theorem encodeMany_singleton (v : U64) : encodeMany [v] = encodeOne v := List.append_nil _

/-- A batch takes at most ten bytes a value (40_encoder.md R103). -/
theorem encodeMany_length_le (vs : List U64) : (encodeMany vs).length ≤ 10 * vs.length := by
  induction vs with
  | nil => exact Nat.le_refl 0
  | cons v vs ih =>
    have hv := encodeOne_length_le v
    rw [encodeMany_cons, List.length_append, List.length_cons]
    omega

/-- The encoding of the values of any command fits OUT, so its byte count fits the 36-bit registers (00_scope.md R9,
R11). -/
theorem encodeMany_values_length_lt (b : Buffers) (m : BitVec 32) :
    (encodeMany (b.values m.toNat)).length < 2 ^ 36 := by
  have hbytes := encodeMany_length_le (b.values m.toNat)
  have hvalues : (b.values m.toNat).length = m.toNat := Memory.readSeq_length b.vin m.toNat
  have hm := m.isLt
  omega

end Sys2Proof.Machine

namespace Sys2Proof.Claims

open Sys2Proof.Machine

/-- Writes from offset 0 on leave the written elements there, and every other one as before (20_memory.md R55). -/
theorem holdsFrom_writeSeq {w bound : Nat} {m : Memory w} {vs : List (BitVec w)} (h : Memory.wf bound m = true)
    (hlen : vs.length ≤ bound) : HoldsFrom m (Memory.writeSeq m 0 vs) vs := by
  intro k
  rw [Memory.read_writeSeq k h (by omega), if_neg (Nat.not_lt_zero k), Nat.sub_zero]

section
variable (op : BitVec 3) (len count m : BitVec 32) (s : State)

/-- An encode command leaves the encoding of its values in OUT (40_encoder.md R102, R103). -/
theorem holdsFrom_encodeCommand (h : s.buf.wf = true) :
    HoldsFrom s.buf.out (encodeCommand op len count m s).buf.out (encodeMany (s.buf.values m.toNat)) := by
  obtain ⟨-, -, hout, -⟩ := s.buf.wf_iff.1 h
  rw [encodeCommand_out]
  exact holdsFrom_writeSeq hout (encodeMany_values_length_lt s.buf m).le

/-- An encode command answers OK with its value count and its exact byte count (40_encoder.md R102, R103). -/
theorem responds_encodeCommand :
    Responds (encodeCommand op len count m s) 0 0 m.toNat (encodeMany (s.buf.values m.toNat)).length := by
  have hbytes : (BitVec.ofNat 36 (encodeMany (s.buf.values m.toNat)).length).toNat
      = (encodeMany (s.buf.values m.toNat)).length :=
    (BitVec.toNat_ofNat ..).trans (Nat.mod_eq_of_lt (encodeMany_values_length_lt s.buf m))
  exact ⟨rfl, rfl, rfl, rfl, hbytes⟩

end

/-- ENC_ONE encodes `VIN[0]` and no other value (40_encoder.md R102). -/
theorem encodeMany_values_one (b : Buffers) :
    encodeMany (b.values (1 : BitVec 32).toNat) = encodeOne (b.vin.read 0) :=
  encodeMany_singleton (b.vin.read 0)

/-- Settles O18: ENC_ONE is the encode command of one value, whose encoding has 1 to 10 bytes. -/
theorem encOneEncodesOneValue : Obligations.EncOneEncodesOneValue := by
  unfold Obligations.EncOneEncodesOneValue
  refine ⟨fun w => (lowByteSelectsCommand w).1.1, fun len count s h => ?_, by decide, by decide, by decide,
    by decide, by decide⟩
  have hholds := holdsFrom_encodeCommand 0 len count 1 s h
  have hresp := responds_encodeCommand 0 len count 1 s
  rw [encodeMany_values_one] at hholds hresp
  have ⟨_, _, _, _, hbytes⟩ := hresp
  refine ⟨encodeCommand 0 len count 1 s, rfl, hholds, hresp, ?_, ?_⟩
  · rw [hbytes]
    exact encodeOne_length_pos _
  · rw [hbytes]
    exact encodeOne_length_le _

end Sys2Proof.Claims
end

/-! ## Decoding one value: the bytes it takes and the value it gives -/
section

namespace Sys2Proof.Machine

section
variable {b last : Byte} {front data : List Byte}

/-- A byte with bit 7 set adds its group and the loop goes on (41_decoder.md R120). -/
theorem decodeFrom_cons_of_more (h : contBitOf b = true) (i : Nat) (acc : U64) (rest : List Byte) :
    decodeFrom i acc (b :: rest) = decodeFrom (i + 1) (acc ||| shl64 (groupOf b) (7 * i)) rest :=
  if_pos h

/-- A byte with bit 7 clear adds its group and ends the value (41_decoder.md R120). -/
theorem decodeFrom_cons_of_last (h : contBitOf b = false) (i : Nat) (acc : U64) (rest : List Byte) :
    decodeFrom i acc (b :: rest) = .ok (acc ||| shl64 (groupOf b) (7 * i), rest) :=
  if_neg (by simp [h])

/-- Without a terminal byte the loop runs out of input (41_decoder.md R123). -/
theorem decodeFrom_of_unterminated (h : ∀ b ∈ data, contBitOf b = true) (i : Nat) (acc : U64) :
    decodeFrom i acc data = .error .unexpectedEndOfInput := by
  induction data generalizing i acc with
  | nil => rfl
  | cons b data ih =>
    obtain ⟨hb, hdata⟩ := List.forall_mem_cons.1 h
    rw [decodeFrom_cons_of_more hb, ih hdata]

/-- The loop reads up to the first terminal byte, and leaves what follows it (41_decoder.md R121). -/
theorem decodeFrom_append (hfront : ∀ b ∈ front, contBitOf b = true) (hlast : contBitOf last = false)
    (i : Nat) (acc : U64) (rest : List Byte) :
    decodeFrom i acc (front ++ last :: rest) = .ok (accumulate i acc (front ++ [last]), rest) := by
  induction front generalizing i acc with
  | nil => exact decodeFrom_cons_of_last hlast i acc rest
  | cons b front ih =>
    obtain ⟨hb, hfront⟩ := List.forall_mem_cons.1 hfront
    rw [List.cons_append, decodeFrom_cons_of_more hb, ih hfront]
    rfl

theorem decodeOne_of_unterminated (h : ∀ b ∈ data, contBitOf b = true) :
    decodeOne data = .error .unexpectedEndOfInput :=
  decodeFrom_of_unterminated h 0 0

theorem decodeOne_append (hfront : ∀ b ∈ front, contBitOf b = true) (hlast : contBitOf last = false)
    (rest : List Byte) :
    decodeOne (front ++ last :: rest) = .ok (accumulate 0 0 (front ++ [last]), rest) :=
  decodeFrom_append hfront hlast 0 0 rest

end

/-- Everything decoding one value can do: fail on input without a terminal byte, or take the bytes up to the first
one (41_decoder.md R121, R123). -/
theorem decodeOne_cases (data : List Byte) :
    ((∀ b ∈ data, contBitOf b = true) ∧ decodeOne data = .error .unexpectedEndOfInput) ∨
    (∃ front last rest, data = front ++ last :: rest ∧ (∀ b ∈ front, contBitOf b = true) ∧
      contBitOf last = false ∧ decodeOne data = .ok (accumulate 0 0 (front ++ [last]), rest)) := by
  cases hfind : data.find? (fun b => !contBitOf b) with
  | none =>
    have hmore : ∀ b ∈ data, contBitOf b = true := by simpa using hfind
    exact .inl ⟨hmore, decodeOne_of_unterminated hmore⟩
  | some last =>
    obtain ⟨hlast, front, rest, rfl, hfront⟩ := List.find?_eq_some_iff_append.1 hfind
    simp only [Bool.not_eq_true', Bool.not_not] at hlast hfront
    exact .inr ⟨front, last, rest, rfl, hfront, hlast, decodeOne_append hfront hlast rest⟩

/-- The only failure is UnexpectedEndOfInput (41_decoder.md R123). -/
theorem decodeOne_error_eq {data : List Byte} {e : ErrorKind} (h : decodeOne data = .error e) :
    e = .unexpectedEndOfInput := by
  obtain ⟨-, he⟩ | ⟨front, last, rest, -, -, -, hok⟩ := decodeOne_cases data
  · exact Except.error.inj (h.symm.trans he)
  · simp [hok] at h

/-- A decoded value takes at least one byte (41_decoder.md R121). -/
theorem decodeOne_rest_length_lt {data rest : List Byte} {v : U64} (h : decodeOne data = .ok (v, rest)) :
    rest.length < data.length := by
  obtain ⟨-, he⟩ | ⟨front, last, rest', rfl, -, -, hok⟩ := decodeOne_cases data
  · simp [he] at h
  · obtain ⟨-, rfl⟩ : _ ∧ rest' = rest := by simpa [hok] using h
    rw [List.length_append, List.length_cons]
    omega

/-- Settles O13: by the two cases of decoding one value. -/
theorem decodeFailsExactlyWithoutTerminalByte : Obligations.DecodeFailsExactlyWithoutTerminalByte := by
  unfold Obligations.DecodeFailsExactlyWithoutTerminalByte
  intro data
  refine ⟨⟨fun h => ?_, decodeOne_of_unterminated⟩, fun h => by simpa using decodeOne_error_eq h⟩
  obtain ⟨hmore, -⟩ | ⟨front, last, rest, -, -, -, hok⟩ := decodeOne_cases data
  · exact hmore
  · simp [hok] at h

end Sys2Proof.Machine

namespace Sys2Proof.Claims

open Sys2Proof.Machine

/-- Exactly one encoded value leaves no rest (41_decoder.md R121). -/
theorem Framed.decodeOne_rest {data rest : List Byte} {v : U64} (hd : Framed data)
    (h : decodeOne data = .ok (v, rest)) : rest = [] := by
  obtain ⟨front, last, rfl, hfront, hlast⟩ := hd
  have hok := decodeOne_append hfront hlast []
  rw [h, Except.ok.injEq, Prod.mk.injEq] at hok
  exact hok.2

/-- Settles O12: a success is the terminated case, and decoding gives the same value whatever follows its terminal
byte. -/
theorem decodeConsumesMinimalPrefix : Obligations.DecodeConsumesMinimalPrefix := by
  unfold Obligations.DecodeConsumesMinimalPrefix
  intro data rest v h
  obtain ⟨-, he⟩ | ⟨front, last, rest', rfl, hfront, hlast, hok⟩ := decodeOne_cases data
  · simp [he] at h
  · obtain ⟨rfl, rfl⟩ : _ = v ∧ rest' = rest := by simpa [hok] using h
    exact ⟨front, last, rfl, hfront, hlast, by simp, decodeOne_append hfront hlast, fun hd => hd.decodeOne_rest h⟩

end Sys2Proof.Claims
end

/-! ## Decoding many values: a fixed number of them, or all there are -/
section

namespace Sys2Proof.Machine

section
variable {data mid rest : List Byte} {v : U64} {vs : List U64}

/-- One value more is one decoded value, and the others from its rest (41_decoder.md R126). -/
theorem decodeFixed_succ_eq_ok_iff {n : Nat} :
    decodeFixed data (n + 1) = .ok (vs, rest) ↔
      ∃ v vs' mid, vs = v :: vs' ∧ decodeOne data = .ok (v, mid) ∧ decodeFixed mid n = .ok (vs', rest) := by
  rw [decodeFixed]
  cases hone : decodeOne data with
  | error e => simp
  | ok p =>
    obtain ⟨v, mid⟩ := p
    cases hmany : decodeFixed mid n with
    | error e => simp [hmany]
    | ok q => simp [hmany, Prod.ext_iff, eq_comm (a := vs), and_comm]

theorem decodeFixed_cons_iff :
    decodeFixed data (v :: vs).length = .ok (v :: vs, rest) ↔
      ∃ mid, decodeOne data = .ok (v, mid) ∧ decodeFixed mid vs.length = .ok (vs, rest) := by
  rw [List.length_cons, decodeFixed_succ_eq_ok_iff]
  simp

theorem decodeFixed_nil_iff : decodeFixed data ([] : List U64).length = .ok ([], rest) ↔ data = rest := by
  simp [decodeFixed]

/-- Each decoded value takes at least one byte (41_decoder.md R121). -/
theorem decodeFixed_length_le (h : decodeFixed data vs.length = .ok (vs, rest)) :
    vs.length + rest.length ≤ data.length := by
  induction vs generalizing data with
  | nil => simp [decodeFixed_nil_iff.1 h]
  | cons v vs ih =>
    obtain ⟨mid, hone, hmany⟩ := decodeFixed_cons_iff.1 h
    have hmid := decodeOne_rest_length_lt hone
    have hrest := ih hmany
    rw [List.length_cons]
    omega

/-- Decoding values while it can leaves an input that is empty or cuts a value short (41_decoder.md R127). -/
theorem exists_decodeFixed_maximal (data : List Byte) :
    ∃ vs cut, decodeFixed data vs.length = .ok (vs, cut) ∧
      (cut = [] ∨ decodeOne cut = .error .unexpectedEndOfInput) := by
  induction hn : data.length using Nat.strong_induction_on generalizing data with
  | _ n ih =>
    obtain ⟨-, he⟩ | ⟨front, last, rest, -, -, -, hok⟩ := decodeOne_cases data
    · exact ⟨[], data, rfl, .inr he⟩
    · obtain ⟨vs, cut, hvs, hcut⟩ := ih rest.length (hn ▸ decodeOne_rest_length_lt hok) rest rfl
      exact ⟨_ :: vs, cut, decodeFixed_cons_iff.2 ⟨rest, hok, hvs⟩, hcut⟩

/-- Input that holds a value is not empty, so the loop takes it (41_decoder.md R127). -/
theorem decodeAllFuel_succ_of_ok (h : decodeOne data = .ok (v, rest)) (fuel : Nat) :
    decodeAllFuel (fuel + 1) data = (decodeAllFuel fuel rest).map (v :: ·) := by
  cases data with
  | nil => simp [decodeOne, decodeFrom] at h
  | cons b bs =>
    rw [decodeAllFuel, h]
    cases hall : decodeAllFuel fuel rest <;> simp [hall, Except.map]

/-- Complete values that use the input up are the result, when the fuel covers their number (41_decoder.md R127). -/
theorem decodeAllFuel_eq_ok {fuel : Nat} (hf : vs.length ≤ fuel) (h : decodeFixed data vs.length = .ok (vs, [])) :
    decodeAllFuel fuel data = .ok vs := by
  induction vs generalizing data fuel with
  | nil =>
    rw [decodeFixed_nil_iff.1 h]
    cases fuel <;> rfl
  | cons v vs ih =>
    obtain ⟨mid, hone, hmany⟩ := decodeFixed_cons_iff.1 h
    obtain ⟨fuel, rfl⟩ := Nat.exists_eq_succ_of_ne_zero (Nat.ne_zero_of_lt hf)
    rw [decodeAllFuel_succ_of_ok hone, ih (Nat.le_of_succ_le_succ hf) hmany]
    rfl

/-- A value cut short makes the whole fail, whatever was decoded before it (41_decoder.md R127). -/
theorem decodeAllFuel_eq_error {fuel : Nat} {cut : List Byte} (hf : vs.length ≤ fuel)
    (h : decodeFixed data vs.length = .ok (vs, cut)) (hne : cut ≠ [])
    (hcut : decodeOne cut = .error .unexpectedEndOfInput) :
    decodeAllFuel fuel data = .error .unexpectedEndOfInput := by
  induction vs generalizing data fuel with
  | nil =>
    obtain ⟨b, bs, rfl⟩ := List.exists_cons_of_ne_nil hne
    rw [decodeFixed_nil_iff.1 h]
    cases fuel with
    | zero => rfl
    | succ fuel => rw [decodeAllFuel, hcut]
  | cons v vs ih =>
    obtain ⟨mid, hone, hmany⟩ := decodeFixed_cons_iff.1 h
    obtain ⟨fuel, rfl⟩ := Nat.exists_eq_succ_of_ne_zero (Nat.ne_zero_of_lt hf)
    rw [decodeAllFuel_succ_of_ok hone, ih (Nat.le_of_succ_le_succ hf) hmany]
    rfl

/-- The input's own length is fuel enough, since every value takes a byte (41_decoder.md R127). -/
theorem decodeAll_eq_ok (h : decodeFixed data vs.length = .ok (vs, [])) : decodeAll data = .ok vs :=
  decodeAllFuel_eq_ok (decodeFixed_length_le h) h

theorem decodeAll_eq_error {cut : List Byte} (h : decodeFixed data vs.length = .ok (vs, cut)) (hne : cut ≠ [])
    (hcut : decodeOne cut = .error .unexpectedEndOfInput) : decodeAll data = .error .unexpectedEndOfInput :=
  decodeAllFuel_eq_error (le_of_add_le_left (decodeFixed_length_le h)) h hne hcut

/-- The values before the first failure, and the input that is left there (41_decoder.md R128). -/
theorem decodedBefore_eq {n : Nat} {cut : List Byte} {e : ErrorKind} (hn : vs.length ≤ n)
    (h : decodeFixed data vs.length = .ok (vs, cut)) (hcut : decodeOne cut = .error e) :
    decodedBefore data n = (vs, cut) := by
  induction vs generalizing data n with
  | nil =>
    rw [decodeFixed_nil_iff.1 h]
    cases n with
    | zero => rfl
    | succ n => rw [decodedBefore, hcut]
  | cons v vs ih =>
    obtain ⟨mid, hone, hmany⟩ := decodeFixed_cons_iff.1 h
    obtain ⟨n, rfl⟩ := Nat.exists_eq_succ_of_ne_zero (Nat.ne_zero_of_lt hn)
    simp [decodedBefore, hone, ih (Nat.le_of_succ_le_succ hn) hmany]

end

end Sys2Proof.Machine
end

/-! ## The batch round trip -/
section

namespace Sys2Proof.Machine

/-- `shl64` is the shift of bit vectors (00_scope.md R11). -/
theorem shl64_eq_shiftLeft (a : U64) (n : Nat) : shl64 a n = a <<< n := by
  apply BitVec.eq_of_toNat_eq
  rw [shl64_toNat, BitVec.toNat_shiftLeft, Nat.shiftLeft_eq]

@[simp] theorem shl64_zero_left (n : Nat) : shl64 0#64 n = 0#64 := by
  simp [shl64]

theorem groupOf_groupByte (r : U64) (more : Bool) :
    groupOf (groupByte r more) = (r.extractLsb' 0 7).setWidth 64 := by
  rw [groupOf, groupByte_group]

/-- A value is its low group and what the shift by one group leaves over. -/
theorem lowGroup_or_shiftGroup (r : U64) : (r.extractLsb' 0 7).setWidth 64 ||| (r >>> 7) <<< 7 = r := by
  ext i hi
  by_cases h : i < 7
  · simp [h, hi]
  · simp [h, hi, Nat.add_sub_cancel' (Nat.le_of_not_lt h)]

/-- The emitted group and the shifted remainder land, one group apart, where the whole value does. -/
theorem shl64_group_or_shiftGroup (r : U64) (more : Bool) (i : Nat) :
    shl64 (groupOf (groupByte r more)) (7 * i) ||| shl64 (r >>> 7) (7 * (i + 1)) = shl64 r (7 * i) := by
  have hshift : (r >>> 7) <<< (7 * (i + 1)) = ((r >>> 7) <<< 7) <<< (7 * i) := by
    rw [← BitVec.shiftLeft_add, Nat.mul_succ, Nat.add_comm]
  simp only [shl64_eq_shiftLeft, groupOf_groupByte]
  rw [hshift, ← BitVec.shiftLeft_or_distrib, lowGroup_or_shiftGroup]

/-- From byte index `i` on, the decoder adds to the accumulator the value the encoder's loop still had to emit, at the
bits of that index. -/
theorem decodeFrom_encodeLoop {fuel : Nat} {r : U64} (hf : fuel ≠ 0) (hr : r.toNat < 2 ^ (7 * fuel)) (i : Nat)
    (acc : U64) (t : List Byte) :
    decodeFrom i acc (encodeLoop fuel r ++ t) = .ok (acc ||| shl64 r (7 * i), t) := by
  induction fuel generalizing r i acc with
  | zero => exact absurd rfl hf
  | succ fuel ih =>
    by_cases h : r >>> 7 = 0
    · have hgroup : shl64 (groupOf (groupByte r false)) (7 * i) = shl64 r (7 * i) := by
        simpa [h] using shl64_group_or_shiftGroup r false i
      rw [encodeLoop_of_last fuel h, List.singleton_append,
        decodeFrom_cons_of_last (contBitOf_groupByte r false), hgroup]
    · have hrest := shiftGroup_lt hr
      have hfuel : fuel ≠ 0 := by
        rintro rfl
        exact h (BitVec.eq_of_toNat_eq (Nat.lt_one_iff.1 hrest))
      rw [encodeLoop_of_more fuel h, List.cons_append, decodeFrom_cons_of_more (contBitOf_groupByte r true),
        ih hfuel hrest, BitVec.or_assoc, shl64_group_or_shiftGroup]

/-- The decoder takes an encoded value off the front of its input (41_decoder.md R135, R137). -/
theorem decodeOne_encodeOne_append (v : U64) (t : List Byte) : decodeOne (encodeOne v ++ t) = .ok (v, t) := by
  have hv : v.toNat < 2 ^ (7 * Config.maxEncLen) := v.isLt.trans (by decide)
  rw [encodeOne_eq_encodeLoop, decodeOne, decodeFrom_encodeLoop (by decide) hv, shl64_eq_shiftLeft]
  simp

/-- The decoder takes an encoded batch off the front of its input, value by value. -/
theorem decodeFixed_encodeMany_append (vs : List U64) (t : List Byte) :
    decodeFixed (encodeMany vs ++ t) vs.length = .ok (vs, t) := by
  induction vs with
  | nil => rfl
  | cons v vs ih =>
    rw [encodeMany_cons, List.append_assoc, decodeFixed_cons_iff]
    exact ⟨encodeMany vs ++ t, decodeOne_encodeOne_append v _, ih⟩

/-- Settles O16: the values of the batch use its encoding up. -/
theorem roundTripOfBatch : Obligations.RoundTripOfBatch := by
  unfold Obligations.RoundTripOfBatch
  intro vs
  have h := decodeFixed_encodeMany_append vs []
  rw [List.append_nil] at h
  exact decodeAll_eq_ok h

end Sys2Proof.Machine
end

/-! ## The decode commands: what they write and what they answer -/
section

namespace Sys2Proof.Machine

/-- The input of a decode command has the length it states (20_memory.md R56). -/
@[simp] theorem Buffers.data_length (b : Buffers) (len : BitVec 32) : (b.data len).length = len.toNat :=
  Memory.readSeq_length b.inp len.toNat

section
variable {s : State} {len : BitVec 32} (count : BitVec 32)

theorem exec_decOne_of_ok {v : U64} {rest : List Byte} (h : decodeOne (s.buf.data len) = .ok (v, rest)) :
    exec (.decOne len count) s
      = .next (decodeSucceeds [v] (len.toNat - rest.length) (beginDecode 2 len count s)) := by
  simp [exec, execDecOne, h]

theorem exec_decOne_of_error {e : ErrorKind} (h : decodeOne (s.buf.data len) = .error e) :
    exec (.decOne len count) s = .next (decodeFails [] (s.buf.data len) (beginDecode 2 len count s)) := by
  simp [exec, execDecOne, h]

theorem exec_decAll_of_ok {vs : List U64} (h : decodeAll (s.buf.data len) = .ok vs) :
    exec (.decAll len count) s = .next (decodeSucceeds vs len.toNat (beginDecode 4 len count s)) := by
  simp [exec, execDecAll, h]

theorem exec_decAll_of_error {e : ErrorKind} (h : decodeAll (s.buf.data len) = .error e) :
    exec (.decAll len count) s
      = .next (decodeFails (decodedBefore (s.buf.data len) len.toNat).1
          (decodedBefore (s.buf.data len) len.toNat).2 (beginDecode 4 len count s)) := by
  simp [exec, execDecAll, h]

end

end Sys2Proof.Machine

namespace Sys2Proof.Claims

open Sys2Proof.Machine

section
variable {s : State} {vs : List U64} {op : BitVec 3} {len count : BitVec 32} {c : Nat} {cut : List Byte}

/-- The decoded values stand in VOUT from index 0 on (41_decoder.md R125 to R127). -/
theorem holdsFrom_decodeSucceeds (h : s.buf.wf = true) (hlen : vs.length < 2 ^ 32) :
    HoldsFrom s.buf.vout (decodeSucceeds vs c (beginDecode op len count s)).buf.vout vs := by
  obtain ⟨-, -, -, hvout⟩ := s.buf.wf_iff.1 h
  rw [decodeSucceeds_vout]
  exact holdsFrom_writeSeq hvout hlen.le

/-- The values before the failure stand in VOUT from index 0 on (41_decoder.md R128). -/
theorem holdsFrom_decodeFails (h : s.buf.wf = true) (hlen : vs.length < 2 ^ 32) :
    HoldsFrom s.buf.vout (decodeFails vs cut (beginDecode op len count s)).buf.vout vs := by
  obtain ⟨-, -, -, hvout⟩ := s.buf.wf_iff.1 h
  rw [decodeFails_vout]
  exact holdsFrom_writeSeq hvout hlen.le

/-- A decode command that succeeds answers OK, the bytes consumed and the number of values (41_decoder.md R125 to
R127). -/
theorem responds_decodeSucceeds (hc : c < 2 ^ 32) (hlen : vs.length < 2 ^ 32) :
    Responds (decodeSucceeds vs c s) 0 c vs.length 0 :=
  ⟨rfl, rfl, (BitVec.toNat_ofNat ..).trans (Nat.mod_eq_of_lt hc),
    (BitVec.toNat_ofNat ..).trans (Nat.mod_eq_of_lt hlen), rfl⟩

/-- A decode command whose input ends too early answers `(1, 0, 0, 0)` (60_exceptions.md R151). -/
theorem responds_decodeFails : Responds (decodeFails vs cut s) 1 0 0 0 :=
  ⟨rfl, rfl, rfl, rfl, rfl⟩

/-- A decode command without a value writes no buffer. -/
theorem sameContents_decodeFails_nil :
    SameContents s (decodeFails [] cut (beginDecode op len count s)) :=
  ⟨fun _ => rfl, fun _ => rfl, fun _ => rfl, fun _ => rfl⟩

theorem sameContents_decodeSucceeds_nil :
    SameContents s (decodeSucceeds [] c (beginDecode op len count s)) :=
  ⟨fun _ => rfl, fun _ => rfl, fun _ => rfl, fun _ => rfl⟩

end

section
variable {len : BitVec 32} (count : BitVec 32) {s : State}

/-- DEC_ONE on input that holds a value (41_decoder.md R125). -/
theorem exec_decOne_success (h : s.buf.wf = true) {v : U64} {rest : List Byte}
    (hok : decodeOne (s.buf.data len) = .ok (v, rest)) :
    ∃ t, exec (.decOne len count) s = .next t ∧ HoldsFrom s.buf.vout t.buf.vout [v] ∧
      rest.length < len.toNat ∧ Responds t 0 (len.toNat - rest.length) 1 0 := by
  have hrest : rest.length < len.toNat := s.buf.data_length len ▸ decodeOne_rest_length_lt hok
  have hconsumed : len.toNat - rest.length < 2 ^ 32 := (Nat.sub_le ..).trans_lt len.isLt
  exact ⟨_, exec_decOne_of_ok count hok, holdsFrom_decodeSucceeds h (Nat.one_lt_two_pow (by decide)), hrest,
    responds_decodeSucceeds hconsumed (Nat.one_lt_two_pow (by decide))⟩

/-- DEC_ALL on input that complete values use up (41_decoder.md R127). -/
theorem exec_decAll_success (h : s.buf.wf = true) {vs : List U64}
    (hvs : decodeFixed (s.buf.data len) vs.length = .ok (vs, [])) :
    ∃ t, exec (.decAll len count) s = .next t ∧ HoldsFrom s.buf.vout t.buf.vout vs ∧
      vs.length ≤ len.toNat ∧ Responds t 0 len.toNat vs.length 0 := by
  have hle : vs.length ≤ len.toNat := s.buf.data_length len ▸ decodeFixed_length_le hvs
  have hlen : vs.length < 2 ^ 32 := hle.trans_lt len.isLt
  exact ⟨_, exec_decAll_of_ok count (decodeAll_eq_ok hvs), holdsFrom_decodeSucceeds h hlen, hle,
    responds_decodeSucceeds len.isLt hlen⟩

/-- DEC_ALL on input that ends inside a value (41_decoder.md R127, R128). -/
theorem exec_decAll_failure (h : s.buf.wf = true) {vs : List U64} {cut : List Byte}
    (hvs : decodeFixed (s.buf.data len) vs.length = .ok (vs, cut)) (hne : cut ≠ [])
    (hcut : decodeOne cut = .error .unexpectedEndOfInput) :
    ∃ t, exec (.decAll len count) s = .next t ∧ HoldsFrom s.buf.vout t.buf.vout vs ∧ Responds t 1 0 0 0 := by
  have hle : vs.length ≤ len.toNat :=
    s.buf.data_length len ▸ le_of_add_le_left (decodeFixed_length_le hvs)
  have hexec := exec_decAll_of_error count (decodeAll_eq_error hvs hne hcut)
  rw [decodedBefore_eq hle hvs hcut] at hexec
  exact ⟨_, hexec, holdsFrom_decodeFails h (hle.trans_lt len.isLt), responds_decodeFails⟩

end

/-- Settles O21: by what decoding one value from the command's input gives. -/
theorem decOneDecodesOneValue : Obligations.DecOneDecodesOneValue := by
  unfold Obligations.DecOneDecodesOneValue
  refine ⟨fun w => (lowByte_eq_opcode_iff_decode (.decOne _ _) rfl rfl).1, fun len count s h =>
    ⟨fun v rest hok => ?_, fun he => ?_, ?_, ?_⟩, by decide, by decide, by decide⟩
  · exact exec_decOne_success count h hok
  · exact ⟨_, exec_decOne_of_error count he, sameContents_decodeFails_nil, responds_decodeFails⟩
  · rintro rfl
    rfl
  · exact (decodeFailsExactlyWithoutTerminalByte _).2

/-- Settles O24: by whether the values decoded from the command's input use it up or leave one cut short. -/
theorem decAllDecodesWholeInput : Obligations.DecAllDecodesWholeInput := by
  unfold Obligations.DecAllDecodesWholeInput
  refine ⟨fun w => (lowByte_eq_opcode_iff_decode (.decAll _ _) rfl rfl).1, fun len count s h =>
    ⟨fun vs hvs => ?_, fun vs cut hvs hne hcut => ?_, ?_, ?_⟩⟩
  · exact exec_decAll_success count h hvs
  · exact exec_decAll_failure count h hvs hne hcut
  · exact exists_decodeFixed_maximal _
  · rintro rfl
    exact ⟨_, exec_decAll_of_ok count rfl, sameContents_decodeSucceeds_nil, rfl, rfl, rfl, rfl, rfl⟩

end Sys2Proof.Claims
end

/-! ## The decoder's micro-step: finish, fail, consume -/
section

namespace Sys2Proof.Machine

/-- The decoder is done: no value is in flight and the command has what it asked for (41_decoder.md R130). -/
theorem Block.decodeDone_iff (b : Block) :
    b.decodeDone = true ↔ b.decActive = false ∧
      ((b.cmdOp = 2 ∧ b.seqK = 1) ∨ (b.cmdOp = 3 ∧ b.seqK = b.cmdCount) ∨ (b.cmdOp = 4 ∧ b.pos = b.cmdLen)) := by
  simp [Block.decodeDone, or_assoc]

theorem Block.inFlight_fst (b : Block) : b.inFlight.1 = if b.decActive then b.decAcc else 0 := by
  cases h : b.decActive <;> simp [Block.inFlight, h]

theorem Block.inFlight_snd_toNat (b : Block) : b.inFlight.2.toNat = if b.decActive then b.decIdx.toNat else 0 := by
  cases h : b.decActive <;> simp [Block.inFlight, h]

section
variable {s : State}

/-- In `DEC` out of reset the decoder steps, at either level (10_state.md R39). -/
theorem step_of_dec (hr : s.chan.rst = false) (hp : s.block.phase = .dec) : step s = .next (decStep s) := by
  simp [step, activity, hr, hp]

/-- Branch (a) of 41_decoder.md R130. -/
theorem decStep_of_done (hd : s.block.decodeDone = true) :
    decStep s = { s with block := s.block.finish statusOk s.block.pos s.block.seqK 0 } :=
  if_pos hd

/-- Branch (b) of 41_decoder.md R130. -/
theorem decStep_of_inputEnd (hd : s.block.decodeDone = false) (hp : s.block.pos = s.block.cmdLen) :
    decStep s = { s with block := s.block.raise .unexpectedEndOfInput } := by
  rw [decStep, if_neg (by simp [hd]), if_pos hp]

/-- Branch (c) of 41_decoder.md R130, on a byte that more follow. -/
theorem decStep_of_more (hd : s.block.decodeDone = false) (hp : s.block.pos ≠ s.block.cmdLen)
    (hc : contBitOf s.decByte = true) :
    decStep s = { s with block := { s.block with
      pos := s.block.pos + 1
      decAcc := s.decNext
      decIdx := BitVec.ofNat 4 (min (s.block.inFlight.2.toNat + 1) Config.idxSaturation)
      decActive := true } } := by
  rw [decStep, if_neg (by simp [hd]), if_neg hp, if_pos hc]

/-- Branch (c) of 41_decoder.md R130, on a terminal byte. -/
theorem decStep_of_last (hd : s.block.decodeDone = false) (hp : s.block.pos ≠ s.block.cmdLen)
    (hc : contBitOf s.decByte = false) :
    decStep s = { s with
      block := { s.block with
        pos := s.block.pos + 1, seqK := s.block.seqK + 1, decActive := false, decAcc := 0, decIdx := 0 }
      buf := { s.buf with vout := Memory.write s.buf.vout s.block.seqK.toNat s.decNext } } := by
  rw [decStep, if_neg (by simp [hd]), if_neg hp, if_neg (by simp [hc])]

/-- The consumed byte is read from `IN[POS]` (41_decoder.md R130). -/
theorem State.ports_inRd_of_consume (hr : s.chan.rst = false) (hph : s.block.phase = .dec)
    (hd : s.block.decodeDone = false) (hp : s.block.pos ≠ s.block.cmdLen) : s.ports.inRd = some s.block.pos := by
  simp [State.ports, Block.decConsumes, hr, hph, hd, hp]

/-- A byte that more follow writes no value (41_decoder.md R130). -/
theorem State.ports_voutWr_of_more (hc : contBitOf s.decByte = true) : s.ports.voutWr = none := by
  by_contra h
  obtain ⟨-, hc'⟩ := s.ports_voutWr_iff.1 h
  simp [hc] at hc'

/-- A terminal byte writes its value to `VOUT[SEQ_K]` (41_decoder.md R130). -/
theorem State.ports_voutWr_of_last (hr : s.chan.rst = false) (hph : s.block.phase = .dec)
    (hd : s.block.decodeDone = false) (hp : s.block.pos ≠ s.block.cmdLen) (hc : contBitOf s.decByte = false) :
    s.ports.voutWr = some (s.block.seqK, s.decNext) := by
  simp [State.ports, Block.decConsumes, hr, hph, hd, hp, hc]

end

/-- The accumulator with the byte's group added, from the registers (41_decoder.md R130). -/
theorem State.decNext_eq (s : State) :
    s.decNext = if s.block.inFlight.2.toNat ≤ 9
      then s.block.inFlight.1 ||| shl64 (groupOf s.decByte) (7 * s.block.inFlight.2.toNat)
      else s.block.inFlight.1 := rfl

/-- Settles O42: the three branches of the decoder's step, the consuming one by bit 7 of its byte. -/
theorem decoderConsumesOneByte : Obligations.DecoderConsumesOneByte := by
  unfold Obligations.DecoderConsumesOneByte
  intro s hr hph done hdone
  obtain rfl : done = s.block.decodeDone := Bool.eq_iff_iff.2 (hdone.trans s.block.decodeDone_iff.symm)
  rw [step_of_dec hr hph]
  refine ⟨fun hd => congrArg _ (decStep_of_done hd), fun hd hp => congrArg _ (decStep_of_inputEnd hd hp),
    fun hd hp b acc0 acc idx hb hacc0 hidx hacc => ?_⟩
  obtain rfl : b = s.decByte := hb
  obtain rfl : acc0 = s.block.inFlight.1 := hacc0.trans s.block.inFlight_fst.symm
  obtain rfl : idx = s.block.inFlight.2.toNat := hidx.trans s.block.inFlight_snd_toNat.symm
  obtain rfl : acc = s.decNext := hacc.trans s.decNext_eq.symm
  exact ⟨State.ports_inRd_of_consume hr hph hd hp,
    fun hc => ⟨State.ports_voutWr_of_more hc, congrArg _ (decStep_of_more hd hp hc)⟩,
    fun hc => ⟨State.ports_voutWr_of_last hr hph hd hp hc, congrArg _ (decStep_of_last hd hp hc)⟩⟩

end Sys2Proof.Machine
end

/-! ## The answer to an illegal word -/
section

namespace Sys2Proof.Claims

open Sys2Proof.Machine

/-- The packed answer to an illegal word is its status alone, every other field being 0 (30_encoding.md R86). -/
theorem rspWord_acceptIllegal (w : CmdWord) (s : State) : (s.acceptIllegal w).block.rspWord = 3 := by
  have hpack : pack ErrorKind.illegalCommand.code 0 0 0 = 3 := by decide
  simpa [Block.rspWord] using hpack

/-- Settles O33: a word with opcode 5, 6 or 7 or a reserved bit set is one the decoder rejects, so its step is
`State.acceptIllegal` at either level. -/
theorem illegalCommandIsReported : Obligations.IllegalCommandIsReported := by
  unfold Obligations.IllegalCommandIsReported
  intro s w rest h hillegal
  obtain ⟨-, hrejected⟩ := decoderAcceptsExactlyLegalWords w
  obtain ⟨e, hd⟩ := hrejected.2 hillegal
  exact ⟨s.popCommand.acceptIllegal w, h.step_illegal hd, responds_acceptIllegal w s.popCommand,
    rspWord_acceptIllegal w s.popCommand, rfl, h.popCommand_chan, rfl⟩

end Sys2Proof.Claims
end

/-! ## Steps in reset -/
section

namespace Sys2Proof.Machine

section
variable {s : State}

theorem step_of_reset (h : s.chan.rst = true) : step s = .next s.resetStep := by
  have ha : activity s = .reset := by rw [activity, if_pos h]
  rw [step, ha]

/-- A second reset step finds nothing left to reset. -/
@[simp] theorem State.resetStep_resetStep (s : State) : s.resetStep.resetStep = s.resetStep := rfl

/-- Holding reset longer than one step changes nothing more (70_reset_and_hazards.md R170): the state after the first
step steps to itself. -/
theorem run_of_reset (h : s.chan.rst = true) (n : Nat) : run (n + 1) s = .next s.resetStep := by
  have hfix : step s.resetStep = .next s.resetStep := by
    rw [step_of_reset (s.resetStep_chan.symm ▸ h), s.resetStep_resetStep]
  rw [run_succ (step_of_reset h), run_of_step_self hfix]

/-- Reset turns every buffer enable off (70_reset_and_hazards.md R170). -/
theorem State.ports_no_access_of_reset (h : s.chan.rst = true) :
    s.ports.inRd = none ∧ s.ports.vinRd = none ∧ s.ports.outWr = none ∧ s.ports.voutWr = none := by
  simp [State.ports, h]

end

/-- Settles O36: every run in reset ends in `State.resetStep`, and no port is on. -/
theorem resetClearsTheBlock : Obligations.ResetClearsTheBlock := by
  unfold Obligations.ResetClearsTheBlock
  intro s n h
  obtain ⟨hready, hvalid⟩ := s.ports_of_reset h
  refine ⟨s.resetStep, run_of_reset h n, ?_⟩
  rw [s.resetStep_block]
  exact ⟨rfl, rfl, rfl, rfl, rfl, rfl, rfl, rfl, rfl, rfl, rfl, rfl, rfl, rfl, rfl, rfl,
    s.resetStep_buf, s.resetStep_chan, s.resetStep_level, hready, hvalid, State.ports_no_access_of_reset h⟩

end Sys2Proof.Machine
end

/-! ## Command words: the round trip of the encoder and the decoder -/
section

namespace Sys2Proof

/-- The sum of 30_encoding.md R77 puts the four fields side by side. -/
theorem joinFields_eq_append (f : CommandFields) : joinFields f = f.count ++ f.len ++ f.rsvd ++ f.op := by
  apply BitVec.eq_of_toNat_eq
  simp only [joinFields_toNat, Machine.append_toNat]
  omega

/-- The word of four fields has each of them in its place (30_encoding.md R77). -/
theorem splitWord_joinFields (f : CommandFields) : splitWord (joinFields f) = f := by
  have hop : opField (joinFields f) = f.op := by
    rw [joinFields_eq_append]
    exact BitVec.extractLsb'_append_eq_right
  have hrsvd : rsvdField (joinFields f) = f.rsvd := by
    rw [joinFields_eq_append, rsvdField, BitVec.extractLsb'_append_eq_of_le (by decide)]
    exact BitVec.extractLsb'_append_eq_right
  have hlen : lenField (joinFields f) = f.len := by
    rw [joinFields_eq_append, lenField, BitVec.extractLsb'_append_eq_of_le (by decide),
      BitVec.extractLsb'_append_eq_of_le (by decide)]
    exact BitVec.extractLsb'_append_eq_right
  have hcount : countField (joinFields f) = f.count := by
    rw [joinFields_eq_append, countField, BitVec.extractLsb'_append_eq_of_le (by decide),
      BitVec.extractLsb'_append_eq_of_le (by decide)]
    exact BitVec.extractLsb'_append_eq_left
  rw [splitWord, hop, hrsvd, hlen, hcount]

/-- The fields of a word, put in their places, give the word: they cover all its 72 bits. -/
theorem joinFields_splitWord (w : CmdWord) : joinFields (splitWord w) = w := by
  apply BitVec.eq_of_toNat_eq
  have hw := w.isLt
  simp only [joinFields_toNat, splitWord, opField, rsvdField, lenField, countField,
    BitVec.extractLsb'_toNat, Nat.shiftRight_eq_div_pow]
  omega

/-- A command's fields are legal, whatever its operands (30_encoding.md R79). -/
theorem Instr.wellFormed_eq_true (i : Instr) : i.wellFormed = true := by
  cases i <;> rfl

/-- Settles O1: the word of a command holds the command's fields. -/
theorem decodeOfEncode : Obligations.DecodeOfEncode := by
  unfold Obligations.DecodeOfEncode
  intro i _
  exact decode_eq_ok_iff.2 (splitWord_joinFields i.fields).symm

/-- Settles O2: a decoded command stands for the fields of its word, and these make up the whole word. -/
theorem encodeOfDecode : Obligations.EncodeOfDecode := by
  unfold Obligations.EncodeOfDecode
  intro w i h
  refine ⟨?_, i.wellFormed_eq_true⟩
  rw [encode, fields_of_decode h, joinFields_splitWord]

/-- Settles O5: each word's fields, cut out of it, are those of the answer. -/
theorem sampleWordsDecode : Obligations.SampleWordsDecode := by
  unfold Obligations.SampleWordsDecode
  decide

end Sys2Proof
end

/-! ## The round trips of one value and of a batch, in functions and through the buffers -/
section

namespace Sys2Proof.Claims

open Sys2Proof.Machine

/-- Every value takes at least one byte (40_encoder.md R103). -/
theorem length_le_encodeMany_length (vs : List U64) : vs.length ≤ (encodeMany vs).length := by
  induction vs with
  | nil => exact Nat.le_refl 0
  | cons v vs ih =>
    have hv := encodeOne_length_pos v
    rw [encodeMany_cons, List.length_append, List.length_cons]
    omega

section
variable {s s' : State} {op : BitVec 3} {len count m len' : BitVec 32}

/-- Input that agrees with the bytes an encode command wrote, over the length it reports, is the encoding of the
command's values. -/
theorem data_of_encodeCommand (h : s.buf.wf = true)
    (hcopy : ∀ k, k < (encodeCommand op len count m s).block.rspNbytes.toNat →
      s'.buf.inp.read k = (encodeCommand op len count m s).buf.out.read k)
    (hlen : len'.toNat = (encodeCommand op len count m s).block.rspNbytes.toNat) :
    s'.buf.data len' = encodeMany (s.buf.values m.toNat) := by
  obtain ⟨-, -, -, -, hbytes⟩ := responds_encodeCommand op len count m s
  rw [hbytes] at hcopy hlen
  apply List.ext_getElem
  · rw [Buffers.data_length, hlen]
  · intro k hk hk'
    have hread : (s'.buf.data len')[k] = s'.buf.inp.read k := Memory.readSeq_getElem _ hk
    rw [hread, hcopy k hk', holdsFrom_encodeCommand op len count m s h,
      List.getElem?_eq_getElem hk', Option.getD_some]

end

/-- The values of an encode command are the VIN elements, in order (20_memory.md R56). -/
theorem values_getElem? (b : Buffers) {m k : Nat} (hk : k < m) : (b.values m)[k]? = some (b.vin.read k) := by
  simp [Buffers.values, Memory.readSeq, hk]

/-- Settles O15: the decoder takes an encoding off the front of any input, and the copied bytes are the encoding. -/
theorem roundTripOfOneValue : Obligations.RoundTripOfOneValue := by
  unfold Obligations.RoundTripOfOneValue
  constructor
  · intro v
    simpa using decodeOne_encodeOne_append v []
  · intro len count len' count' s s' t h h' hexec hcopy hlen
    obtain rfl : encodeCommand 0 len count 1 s = t := Host.Outcome.next.inj hexec
    have hdata := data_of_encodeCommand h hcopy hlen
    have hone : decodeOne (s'.buf.data len') = .ok (s.buf.vin.read 0, []) := by
      rw [hdata, encodeMany_values_one]
      simpa using decodeOne_encodeOne_append (s.buf.vin.read 0) []
    obtain ⟨u, hu, hholds, -, hresp⟩ := exec_decOne_success count' h' hone
    rw [List.length_nil, Nat.sub_zero, hlen] at hresp
    exact ⟨u, hu, hresp, hholds 0⟩

/-- Settles O17: the copied bytes are the encoding of the values, which decoding uses up. -/
theorem roundTripOfBatchThroughBuffers : Obligations.RoundTripOfBatchThroughBuffers := by
  unfold Obligations.RoundTripOfBatchThroughBuffers
  intro len count len' count' s s' t h h' hexec hcopy hlen
  obtain rfl : encodeCommand 1 len count count s = t := Host.Outcome.next.inj hexec
  have hall : decodeFixed (s'.buf.data len') (s.buf.values count.toNat).length
      = .ok (s.buf.values count.toNat, []) := by
    rw [data_of_encodeCommand h hcopy hlen]
    simpa using decodeFixed_encodeMany_append (s.buf.values count.toNat) []
  obtain ⟨u, hu, hholds, -, hresp⟩ := exec_decAll_success count' h' hall
  rw [hlen, Buffers.values, Memory.readSeq_length] at hresp
  refine ⟨u, hu, hresp, fun k hk => ?_⟩
  rw [hholds k, values_getElem? s.buf hk, Option.getD_some]

end Sys2Proof.Claims
end

/-! ## The encoder's two levels: the run of an encode command reaches its meaning -/
section

namespace Sys2Proof.Machine

/-- A number that fits its register is the register's value. -/
theorem toNat_ofNat_of_lt {w n : Nat} (h : n < 2 ^ w) : (BitVec.ofNat w n).toNat = n :=
  (BitVec.toNat_ofNat ..).trans (Nat.mod_eq_of_lt h)

/-- Consecutive writes of two sequences, one behind the other. -/
theorem Memory.writeSeq_append {w : Nat} (m : Memory w) (k : Nat) (us vs : List (BitVec w)) :
    Memory.writeSeq m k (us ++ vs) = Memory.writeSeq (Memory.writeSeq m k us) (k + us.length) vs := by
  induction us generalizing m k with
  | nil => rfl
  | cons u us ih =>
    rw [List.cons_append, Memory.writeSeq, ih, List.length_cons, Nat.add_right_comm, Nat.add_assoc]
    rfl

/-- One value more is the next VIN element, behind the others. -/
theorem Buffers.values_succ (b : Buffers) (k : Nat) : b.values (k + 1) = b.values k ++ [b.vin.read k] := by
  simp [Buffers.values, Memory.readSeq, List.range_succ]

theorem encodeMany_append (us vs : List U64) : encodeMany (us ++ vs) = encodeMany us ++ encodeMany vs := by
  simp [encodeMany]

/-- A state in which a value is in flight, once its bytes are written behind those of the values before it and it has
ended (40_encoder.md R105). -/
def State.valueEmitted (bytes : List Byte) (s : State) : State :=
  { s with
    block := { s.block with
      nbytes := s.block.nbytes + BitVec.ofNat 36 bytes.length
      encRem := 0, encActive := false, seqK := s.block.seqK + 1 }
    buf := { s.buf with out := Memory.writeSeq s.buf.out s.block.nbytes.toNat bytes } }

/-- A state in which a value is in flight, once its next byte is written (40_encoder.md R105). -/
def State.byteEmitted (s : State) : State :=
  { s with
    block := { s.block with
      nbytes := s.block.nbytes + 1
      encRem := s.block.encRem >>> 7
      encActive := decide (s.block.encRem >>> 7 ≠ 0)
      seqK := if s.block.encRem >>> 7 = 0 then s.block.seqK + 1 else s.block.seqK }
    buf := { s.buf with out := Memory.write s.buf.out s.block.nbytes.toNat s.block.encByte } }

section
variable {s : State}

/-- With a value in flight, the step in `ENC` emits a byte (40_encoder.md R105). -/
theorem step_of_emit (hr : s.chan.rst = false) (hp : s.block.phase = .enc) (ha : s.block.encActive = true) :
    step s = .next s.byteEmitted :=
  (step_of_enc hr hp).trans (congrArg _ (encStep_of_active ha))

/-- The byte that leaves nothing over is the whole of its value. -/
theorem State.byteEmitted_of_last (h : s.block.encRem >>> 7 = 0) :
    s.byteEmitted = s.valueEmitted [groupByte s.block.encRem false] := by
  simp [State.byteEmitted, State.valueEmitted, Memory.writeSeq, Block.encByte, h]

/-- A byte that leaves something over is followed by the bytes of what it leaves. -/
theorem State.valueEmitted_byteEmitted (h : s.block.encRem >>> 7 ≠ 0) (hn : s.block.nbytes.toNat + 1 < 2 ^ 36)
    (bytes : List Byte) :
    s.byteEmitted.valueEmitted bytes = s.valueEmitted (groupByte s.block.encRem true :: bytes) := by
  have hnext : (s.block.nbytes + 1#36).toNat = s.block.nbytes.toNat + 1 := by bv_omega
  have hcount : s.block.nbytes + 1#36 + BitVec.ofNat 36 bytes.length
      = s.block.nbytes + BitVec.ofNat 36 (bytes.length + 1) := by
    rw [BitVec.ofNat_add, BitVec.add_assoc, BitVec.add_comm 1#36]
  have hmore : ¬ s.block.encRem >>> 7 = 0#64 := h
  simp [State.byteEmitted, State.valueEmitted, Memory.writeSeq, Block.encByte, hmore, hnext, hcount]

/-- Something left over a group asks for fuel for the bytes it takes. -/
theorem fuel_ne_zero_of_more {fuel : Nat} {r : U64} (hr : r.toNat < 2 ^ (7 * (fuel + 1))) (h : r >>> 7 ≠ 0) :
    fuel ≠ 0 := by
  rintro rfl
  exact h (BitVec.eq_of_toNat_eq (Nat.lt_one_iff.1 (shiftGroup_lt hr)))

/-- With a value in flight, the encoder takes one step for each byte that is still to come (40_encoder.md R105,
R108). -/
theorem run_encodeLoop {fuel : Nat} (hr : s.chan.rst = false) (hp : s.block.phase = .enc)
    (ha : s.block.encActive = true) (hrem : s.block.encRem.toNat < 2 ^ (7 * fuel)) (hf : fuel ≠ 0)
    (hfit : s.block.nbytes.toNat + (encodeLoop fuel s.block.encRem).length < 2 ^ 36) :
    run (encodeLoop fuel s.block.encRem).length s
      = .next (s.valueEmitted (encodeLoop fuel s.block.encRem)) := by
  induction fuel generalizing s with
  | zero => exact absurd rfl hf
  | succ fuel ih =>
    have hstep := step_of_emit hr hp ha
    by_cases h : s.block.encRem >>> 7 = 0
    · rw [encodeLoop_of_last fuel h, ← State.byteEmitted_of_last h]
      exact run_one hstep
    · have hrest := shiftGroup_lt hrem
      have hfuel := fuel_ne_zero_of_more hrem h
      rw [encodeLoop_of_more fuel h, List.length_cons] at hfit ⊢
      have hn : s.block.nbytes.toNat + 1 < 2 ^ 36 := by
        have := encodeLoop_length_pos hfuel (s.block.encRem >>> 7)
        omega
      have hactive : s.byteEmitted.block.encActive = true := decide_eq_true h
      have hfit' : s.byteEmitted.block.nbytes.toNat + (encodeLoop fuel (s.block.encRem >>> 7)).length < 2 ^ 36 := by
        have : s.byteEmitted.block.nbytes = s.block.nbytes + 1 := rfl
        bv_omega
      rw [run_succ hstep, ← State.valueEmitted_byteEmitted h hn]
      exact ih (s := s.byteEmitted) hr hp hactive hrest hfuel hfit'

end

/-- The state of the micro-step run of an encode command once `k` of its values are encoded. -/
def State.encodedUpTo (i : Instr) (s : State) (k : Nat) : State :=
  { s with
    block := { s.block.latch i.opcode i.len i.count with
      phase := .enc
      seqK := BitVec.ofNat 32 k
      nbytes := BitVec.ofNat 36 (encodeMany (s.buf.values k)).length }
    buf := { s.buf with out := Memory.writeSeq s.buf.out 0 (encodeMany (s.buf.values k)) } }

section
variable {i : Instr} {s : State} {k : Nat}

/-- A run of an encode command begins with no value encoded (10_state.md R40). -/
theorem State.accept_eq_encodedUpTo_zero (hi : i.opcode.toNat ≤ 1) : s.accept i = s.encodedUpTo i 0 := by
  simp only [State.accept, if_pos hi]
  rfl

/-- Ten bytes a value fit the byte counter (00_scope.md R9, R11). -/
theorem encodeMany_values_fit (b : Buffers) (hk : k < 2 ^ 32) : (encodeMany (b.values k)).length < 2 ^ 36 := by
  have h := encodeMany_values_length_lt b (BitVec.ofNat 32 k)
  rwa [toNat_ofNat_of_lt hk] at h

/-- A state between values, once `v` is fetched (40_encoder.md R104). -/
def State.valueFetched (v : U64) (s : State) : State :=
  { s with block := { s.block with encRem := v, encActive := true } }

/-- With values left, the step between values in `ENC` fetches the next one (40_encoder.md R104). -/
theorem step_of_fetch (hr : s.chan.rst = false) (hp : s.block.phase = .enc) (ha : s.block.encActive = false)
    (hk : s.block.seqK ≠ s.block.encodeCount) :
    step s = .next (s.valueFetched (s.buf.vin.read s.block.seqK.toNat)) :=
  (step_of_enc hr hp).trans (congrArg _ (encStep_of_fetch ha hk))

section
variable (hk : k + 1 < 2 ^ 32)
include hk

theorem State.encodedUpTo_seqK : (s.encodedUpTo i k).block.seqK.toNat = k :=
  toNat_ofNat_of_lt (Nat.lt_of_succ_lt hk)

theorem State.encodedUpTo_nbytes :
    (s.encodedUpTo i k).block.nbytes.toNat = (encodeMany (s.buf.values k)).length :=
  toNat_ofNat_of_lt (encodeMany_values_fit s.buf (Nat.lt_of_succ_lt hk))

/-- The bytes of one value more, behind those of the values before it. -/
theorem State.encodedUpTo_succ (v : U64) (hv : v = s.buf.vin.read k) :
    ((s.encodedUpTo i k).valueFetched v).valueEmitted (encodeOne v) = s.encodedUpTo i (k + 1) := by
  have hn := s.encodedUpTo_nbytes (i := i) hk
  have hoff : ((s.encodedUpTo i k).valueFetched v).block.nbytes.toNat = (encodeMany (s.buf.values k)).length := hn
  rw [State.valueEmitted, hoff]
  simp only [State.valueFetched, State.encodedUpTo, Buffers.values_succ, encodeMany_append, encodeMany_singleton,
      Memory.writeSeq_append, List.length_append, BitVec.ofNat_add, Nat.zero_add, hv]
  rfl

/-- One value: the fetch, then one step a byte (40_encoder.md R108). -/
theorem run_encodeOne (hr : s.chan.rst = false)
    (hcount : BitVec.ofNat 32 k ≠ (s.encodedUpTo i k).block.encodeCount) :
    run (1 + (encodeOne (s.buf.vin.read k)).length) (s.encodedUpTo i k) = .next (s.encodedUpTo i (k + 1)) := by
  obtain ⟨v, hv⟩ : ∃ v, v = s.buf.vin.read k := ⟨_, rfl⟩
  have hfetch : step (s.encodedUpTo i k) = .next ((s.encodedUpTo i k).valueFetched v) := by
    rw [step_of_fetch (s := s.encodedUpTo i k) hr rfl rfl hcount, s.encodedUpTo_seqK hk, hv]
    rfl
  have hfit : ((s.encodedUpTo i k).valueFetched v).block.nbytes.toNat + (encodeLoop Config.maxEncLen v).length
      < 2 ^ 36 := by
    have hbytes := encodeMany_values_fit s.buf hk
    rw [Buffers.values_succ, encodeMany_append, encodeMany_singleton, List.length_append, ← hv,
      encodeOne_eq_encodeLoop, ← s.encodedUpTo_nbytes (i := i) hk] at hbytes
    exact hbytes
  have hbytes : run (encodeOne v).length ((s.encodedUpTo i k).valueFetched v)
      = .next (((s.encodedUpTo i k).valueFetched v).valueEmitted (encodeOne v)) := by
    rw [encodeOne_eq_encodeLoop]
    exact run_encodeLoop (s := (s.encodedUpTo i k).valueFetched v) hr rfl rfl (v.isLt.trans (by decide))
      (by decide) hfit
  rw [← hv, Nat.add_comm, run_succ hfetch, hbytes, State.encodedUpTo_succ hk v hv]

end

/-- The values an encode command asks for, in the registers of its run (40_encoder.md R104). -/
theorem State.encodedUpTo_encodeCount (hi : i.opcode.toNat ≤ 1) :
    (s.encodedUpTo i k).block.encodeCount.toNat = Claims.encodeValues i := by
  cases i with
  | encOne => rfl
  | encMany => rfl
  | decOne => simp [Instr.opcode] at hi
  | decFixed => simp [Instr.opcode] at hi
  | decAll => simp [Instr.opcode] at hi

/-- The values of an encode command, one after the other (40_encoder.md R108). -/
theorem run_encodedUpTo (hr : s.chan.rst = false) (hi : i.opcode.toNat ≤ 1) (hk : k ≤ Claims.encodeValues i) :
    run ((s.buf.values k).map fun v => 1 + (encodeOne v).length).sum (s.encodedUpTo i 0)
      = .next (s.encodedUpTo i k) := by
  induction k with
  | zero => rfl
  | succ k ih =>
    have hm := s.encodedUpTo_encodeCount (k := k) hi
    have hlt := (s.encodedUpTo i k).block.encodeCount.isLt
    have hcount : BitVec.ofNat 32 k ≠ (s.encodedUpTo i k).block.encodeCount := by
      intro h
      rw [← h, toNat_ofNat_of_lt (by omega)] at hm
      omega
    rw [Buffers.values_succ, List.map_append, List.sum_append, run_add (ih (Nat.le_of_succ_le hk))]
    simpa using run_encodeOne (by omega) hr hcount

/-- With every value encoded, the encoder's last step leaves what the command means (40_encoder.md R104). -/
theorem step_encodedUpTo_last (hr : s.chan.rst = false) (hi : i.opcode.toNat ≤ 1) :
    step (s.encodedUpTo i (Claims.encodeValues i)) = exec i s := by
  have hm := s.encodedUpTo_encodeCount (k := Claims.encodeValues i) hi
  have hdone : (s.encodedUpTo i (Claims.encodeValues i)).block.seqK
      = (s.encodedUpTo i (Claims.encodeValues i)).block.encodeCount := by
    rw [← hm]
    exact BitVec.ofNat_toNat ..
  rw [step_of_enc (s := s.encodedUpTo i _) hr rfl, encStep_of_done rfl hdone]
  cases i with
  | encOne => rfl
  | encMany len count =>
    have hseq : BitVec.ofNat 32 count.toNat = count := BitVec.ofNat_toNat ..
    simp only [exec, execEncMany, encodeCommand, State.encodedUpTo, Claims.encodeValues, hseq]
    rfl
  | decOne => simp [Instr.opcode] at hi
  | decFixed => simp [Instr.opcode] at hi
  | decAll => simp [Instr.opcode] at hi

end

/-- Settles O47: the accept step, the values, and the last step, which leaves what `exec` gives. -/
theorem encoderLevelsAgree : Obligations.EncoderLevelsAgree := by
  unfold Obligations.EncoderLevelsAgree
  intro s w rest i h hl hd hi
  have ⟨hr, _, _⟩ := h
  have haccept : run 1 s = .next (s.popCommand.encodedUpTo i 0) := by
    rw [run_one (h.step_microStep hd hl), State.accept_eq_encodedUpTo_zero hi]
  have hvalues := run_encodedUpTo (s := s.popCommand) hr hi le_rfl
  rw [run_add haccept, Claims.encodeSteps, ← s.popCommand_buf, run_add hvalues]
  obtain ⟨t, ht⟩ := exec_next i s.popCommand
  have hlast := step_encodedUpTo_last (s := s.popCommand) hr hi
  rw [ht] at hlast ⊢
  exact run_one hlast

end Sys2Proof.Machine
end

/-! ## The decode commands as one: values until the command has what it asks for, or the input ends -/
section

namespace Sys2Proof.Machine

/-- The most values a decode command takes from its input: 1, `COUNT`, or as many as the input has bytes
(41_decoder.md R125 to R127); an encode command takes none. -/
def decodeLimit : Instr → Nat
  | .encOne _ _ => 0
  | .encMany _ _ => 0
  | .decOne _ _ => 1
  | .decFixed _ count => count.toNat
  | .decAll len _ => len.toNat

/-- Whether a decode command has what it asks for, once `n` values are decoded and `rest` is left: the whole input for
DEC_ALL, the number of values for the other two (41_decoder.md R125 to R127). -/
def satisfied : Instr → Nat → List Byte → Bool
  | .decAll _ _, _, rest => rest.isEmpty
  | i, n, _ => n == decodeLimit i

/-- What a decode command does once it has decoded `vs` and is left with `rest` (41_decoder.md R125 to R128). -/
def decodeOutcome (i : Instr) (vs : List U64) (rest : List Byte) (s : State) : State :=
  if satisfied i vs.length rest
  then decodeSucceeds vs (i.len.toNat - rest.length) (beginDecode i.opcode i.len i.count s)
  else decodeFails vs rest (beginDecode i.opcode i.len i.count s)

/-- Repeated decoding gives the number of values asked for, or stops where decode-one fails (41_decoder.md R128). -/
theorem decodedBefore_cases (data : List Byte) (n : Nat) :
    ∃ vs rest, decodedBefore data n = (vs, rest) ∧ decodeFixed data vs.length = .ok (vs, rest) ∧
      (vs.length = n ∨
        (vs.length < n ∧ decodeOne rest = .error .unexpectedEndOfInput ∧
          decodeFixed data n = .error .unexpectedEndOfInput)) := by
  induction n generalizing data with
  | zero => exact ⟨[], data, rfl, rfl, .inl rfl⟩
  | succ n ih =>
    cases hone : decodeOne data with
    | error e =>
      obtain rfl := decodeOne_error_eq hone
      refine ⟨[], data, ?_, rfl, .inr ⟨Nat.succ_pos n, hone, ?_⟩⟩
      · rw [decodedBefore, hone]
      · rw [decodeFixed, hone]
    | ok p =>
      obtain ⟨v, mid⟩ := p
      obtain ⟨vs, rest, hbefore, hfixed, hn⟩ := ih mid
      refine ⟨v :: vs, rest, ?_, decodeFixed_cons_iff.2 ⟨mid, hone, hfixed⟩, ?_⟩
      · simp [decodedBefore, hone, hbefore]
      · obtain rfl | ⟨hlt, hcut, herr⟩ := hn
        · exact .inl rfl
        · refine .inr ⟨Nat.succ_lt_succ hlt, hcut, ?_⟩
          rw [decodeFixed, hone]
          simp [herr]

/-- What decoding one value takes off the front of its input does not depend on what follows (41_decoder.md R121). -/
theorem decodeOne_prefix {data rest : List Byte} {v : U64} (h : decodeOne data = .ok (v, rest)) :
    ∃ taken, data = taken ++ rest ∧ ∀ tail, decodeOne (taken ++ tail) = .ok (v, tail) := by
  obtain ⟨-, he⟩ | ⟨front, last, rest', rfl, hfront, hlast, hok⟩ := decodeOne_cases data
  · simp [he] at h
  · obtain ⟨rfl, rfl⟩ : accumulate 0 0 (front ++ [last]) = v ∧ rest' = rest := by simpa [hok] using h
    refine ⟨front ++ [last], by simp, fun tail => ?_⟩
    rw [List.append_assoc, List.singleton_append]
    exact decodeOne_append hfront hlast tail

/-- What decoding values takes off the front of its input does not depend on what follows (41_decoder.md R121). -/
theorem decodeFixed_prefix {data rest : List Byte} {vs : List U64}
    (h : decodeFixed data vs.length = .ok (vs, rest)) :
    ∃ taken, data = taken ++ rest ∧ ∀ tail, decodeFixed (taken ++ tail) vs.length = .ok (vs, tail) := by
  induction vs generalizing data with
  | nil => exact ⟨[], decodeFixed_nil_iff.1 h, fun _ => rfl⟩
  | cons v vs ih =>
    obtain ⟨mid, hone, hmany⟩ := decodeFixed_cons_iff.1 h
    obtain ⟨first, rfl, hfirst⟩ := decodeOne_prefix hone
    obtain ⟨others, rfl, hothers⟩ := ih hmany
    refine ⟨first ++ others, by rw [List.append_assoc], fun tail =>
      decodeFixed_cons_iff.2 ⟨others ++ tail, ?_, hothers tail⟩⟩
    rw [List.append_assoc]
    exact hfirst _

theorem decodeOne_suffix {data rest : List Byte} {v : U64} (h : decodeOne data = .ok (v, rest)) : rest <:+ data := by
  obtain ⟨taken, rfl, -⟩ := decodeOne_prefix h
  exact List.suffix_append taken rest

theorem decodeFixed_suffix {data rest : List Byte} {vs : List U64}
    (h : decodeFixed data vs.length = .ok (vs, rest)) : rest <:+ data := by
  obtain ⟨taken, rfl, -⟩ := decodeFixed_prefix h
  exact List.suffix_append taken rest

/-- What `n` decode-one calls give decides what decoding `n` values gives (41_decoder.md R126). -/
theorem decodeFixed_of_decodedBefore {data rest : List Byte} {vs : List U64} {n : Nat}
    (h : decodedBefore data n = (vs, rest)) :
    decodeFixed data n = if vs.length == n then .ok (vs, rest) else .error .unexpectedEndOfInput := by
  obtain ⟨us, mid, hbefore, hfixed, hn⟩ := decodedBefore_cases data n
  obtain ⟨rfl, rfl⟩ : us = vs ∧ mid = rest := by simpa [hbefore] using h
  obtain rfl | ⟨hlt, -, herr⟩ := hn
  · rw [hfixed, if_pos (by simp)]
  · rw [herr, if_neg (by simp [hlt.ne])]

/-- Whether as many decode-one calls as the input has bytes leave nothing decides what decoding all of it gives
(41_decoder.md R127). -/
theorem decodeAll_of_decodedBefore {data rest : List Byte} {vs : List U64}
    (h : decodedBefore data data.length = (vs, rest)) :
    decodeAll data = if rest.isEmpty then .ok vs else .error .unexpectedEndOfInput := by
  obtain ⟨us, mid, hbefore, hfixed, hn⟩ := decodedBefore_cases data data.length
  obtain ⟨rfl, rfl⟩ : us = vs ∧ mid = rest := by simpa [hbefore] using h
  have hle := decodeFixed_length_le hfixed
  cases mid with
  | nil => exact decodeAll_eq_ok hfixed
  | cons b bs =>
    obtain heq | ⟨-, hcut, -⟩ := hn
    · rw [List.length_cons] at hle
      omega
    · exact decodeAll_eq_error hfixed (List.cons_ne_nil b bs) hcut

section
variable {i : Instr} {s t : State} {vs : List U64} {rest : List Byte}

theorem exec_decFixed_of_ok {len count : BitVec 32}
    (h : decodeFixed (s.buf.data len) count.toNat = .ok (vs, rest)) :
    exec (.decFixed len count) s
      = .next (decodeSucceeds vs (len.toNat - rest.length) (beginDecode 3 len count s)) := by
  simp [exec, execDecFixed, h]

theorem exec_decFixed_of_error {len count : BitVec 32} {e : ErrorKind}
    (h : decodeFixed (s.buf.data len) count.toNat = .error e) :
    exec (.decFixed len count) s
      = .next (decodeFails (decodedBefore (s.buf.data len) count.toNat).1
          (decodedBefore (s.buf.data len) count.toNat).2 (beginDecode 3 len count s)) := by
  simp [exec, execDecFixed, h]

theorem decodeOutcome_of_satisfied (h : satisfied i vs.length rest = true) (s : State) :
    decodeOutcome i vs rest s
      = decodeSucceeds vs (i.len.toNat - rest.length) (beginDecode i.opcode i.len i.count s) :=
  if_pos h

theorem decodeOutcome_of_not_satisfied (h : satisfied i vs.length rest = false) (s : State) :
    decodeOutcome i vs rest s = decodeFails vs rest (beginDecode i.opcode i.len i.count s) :=
  if_neg (by simp [h])

/-- The three decode commands are one: what the decode-one calls give, and whether the command is satisfied by it,
decide everything (41_decoder.md R125 to R128). -/
theorem exec_decode (hi : 2 ≤ i.opcode.toNat)
    (h : decodedBefore (s.buf.data i.len) (decodeLimit i) = (vs, rest)) :
    exec i s = .next (decodeOutcome i vs rest s) := by
  cases i with
  | encOne => simp [Instr.opcode] at hi
  | encMany => simp [Instr.opcode] at hi
  | decOne len count =>
    cases hone : decodeOne (s.buf.data len) with
    | error e =>
      obtain ⟨rfl, rfl⟩ : [] = vs ∧ s.buf.data len = rest := by
        simpa [decodedBefore, decodeLimit, Instr.len, hone] using h
      rw [exec_decOne_of_error count hone, decodeOutcome_of_not_satisfied rfl]
      rfl
    | ok p =>
      obtain ⟨v, mid⟩ := p
      obtain ⟨rfl, rfl⟩ : [v] = vs ∧ mid = rest := by
        simpa [decodedBefore, decodeLimit, Instr.len, hone] using h
      rw [exec_decOne_of_ok count hone, decodeOutcome_of_satisfied rfl]
      rfl
  | decFixed len count =>
    have hbefore : decodedBefore (s.buf.data len) count.toNat = (vs, rest) := h
    have hfixed : decodeFixed (s.buf.data len) count.toNat
        = if satisfied (.decFixed len count) vs.length rest then .ok (vs, rest) else .error .unexpectedEndOfInput :=
      decodeFixed_of_decodedBefore h
    cases hsat : satisfied (.decFixed len count) vs.length rest <;> rw [hsat] at hfixed
    · rw [exec_decFixed_of_error hfixed, decodeOutcome_of_not_satisfied hsat, hbefore]
      rfl
    · rw [exec_decFixed_of_ok hfixed, decodeOutcome_of_satisfied hsat]
      rfl
  | decAll len count =>
    have hbefore : decodedBefore (s.buf.data len) len.toNat = (vs, rest) := h
    have hall : decodeAll (s.buf.data len) = if rest.isEmpty then .ok vs else .error .unexpectedEndOfInput :=
      decodeAll_of_decodedBefore (by rw [Buffers.data_length, hbefore])
    cases rest with
    | nil =>
      rw [exec_decAll_of_ok count hall, decodeOutcome_of_satisfied rfl]
      rfl
    | cons b bs =>
      rw [exec_decAll_of_error count hall, decodeOutcome_of_not_satisfied rfl, hbefore]
      rfl

/-- As many values as a command may take satisfy it: for DEC_ALL they have used its input up, a byte each. -/
theorem satisfied_of_limit (hfixed : decodeFixed (s.buf.data i.len) vs.length = .ok (vs, rest))
    (hn : vs.length = decodeLimit i) : satisfied i vs.length rest = true := by
  have hle := decodeFixed_length_le hfixed
  rw [Buffers.data_length] at hle
  cases i with
  | decAll len count =>
    have hlimit : vs.length = len.toNat := hn
    have hrest : rest.length = 0 := by
      simp only [Instr.len] at hle
      omega
    simpa [satisfied] using hrest
  | _ => simp [satisfied, hn]

/-- Everything a decode command can do: decode what it asks for, or stop where a value is cut short. -/
theorem exec_decode_cases (hi : 2 ≤ i.opcode.toNat) (h : exec i s = .next t) :
    ∃ vs rest, decodedBefore (s.buf.data i.len) (decodeLimit i) = (vs, rest) ∧
      decodeFixed (s.buf.data i.len) vs.length = .ok (vs, rest) ∧ vs.length ≤ decodeLimit i ∧
      t = decodeOutcome i vs rest s ∧
      (satisfied i vs.length rest = true ∨
        (satisfied i vs.length rest = false ∧ vs.length < decodeLimit i ∧
          decodeOne rest = .error .unexpectedEndOfInput)) := by
  obtain ⟨vs, rest, hbefore, hfixed, hn⟩ := decodedBefore_cases (s.buf.data i.len) (decodeLimit i)
  obtain rfl : decodeOutcome i vs rest s = t := Host.Outcome.next.inj ((exec_decode hi hbefore).symm.trans h)
  refine ⟨vs, rest, hbefore, hfixed, hn.elim le_of_eq fun hn => hn.1.le, rfl, ?_⟩
  obtain heq | ⟨hlt, hcut, -⟩ := hn
  · exact .inl (satisfied_of_limit hfixed heq)
  · exact (Bool.eq_false_or_eq_true _).imp_right fun hsat => ⟨hsat, hlt, hcut⟩

end

end Sys2Proof.Machine
end

/-! ## The decoder's two levels: the run of a decode command reaches its meaning -/
section

namespace Sys2Proof.Machine

/-- The accumulator of more bytes goes on from that of the ones before them. -/
theorem accumulate_append (xs ys : List Byte) (i : Nat) (acc : U64) :
    accumulate i acc (xs ++ ys) = accumulate (i + xs.length) (accumulate i acc xs) ys := by
  induction xs generalizing i acc with
  | nil => rfl
  | cons b xs ih =>
    rw [List.cons_append, accumulate, ih, List.length_cons, Nat.add_assoc, Nat.add_comm 1]
    rfl

/-- A shift by the whole width or more leaves nothing (00_scope.md R11). -/
theorem shl64_of_width_le (a : U64) {n : Nat} (h : 64 ≤ n) : shl64 a n = 0 := by
  rw [shl64_eq_shiftLeft]
  exact BitVec.shiftLeft_eq_zero h

/-- The saturated index fits its register (10_state.md R27). -/
theorem toNat_saturated (n : Nat) :
    (BitVec.ofNat 4 (min n Config.idxSaturation)).toNat = min n Config.idxSaturation :=
  toNat_ofNat_of_lt ((Nat.min_le_right ..).trans_lt (by decide))

/-- The saturated index adds what the byte index itself adds: from index 10 on, nothing (41_decoder.md R130, R131). -/
theorem addGroup_saturated (acc : U64) (n : Nat) (b : Byte) :
    addGroup acc (BitVec.ofNat 4 (min n Config.idxSaturation)) b = acc ||| shl64 (groupOf b) (7 * n) := by
  rw [addGroup, toNat_saturated, Config.idxSaturation]
  by_cases hn : n ≤ 9
  · rw [if_pos (by omega), Nat.min_eq_left (by omega)]
  · rw [if_neg (by omega), shl64_of_width_le _ (by omega)]
    exact BitVec.or_zero.symm

/-- The saturated index of one byte more (41_decoder.md R130). -/
theorem min_succ_idxSaturation (n : Nat) :
    min ((BitVec.ofNat 4 (min n Config.idxSaturation)).toNat + 1) Config.idxSaturation
      = min (n + 1) Config.idxSaturation := by
  rw [toNat_saturated, Config.idxSaturation]
  omega

/-- The state of the micro-step run of a decode command once `vs` are decoded and the bytes `cut` of the next value are
read, with `rest` still to read. -/
def State.decodedUpTo (i : Instr) (s : State) (vs : List U64) (cut rest : List Byte) : State :=
  { s with
    block := { s.block.latch i.opcode i.len i.count with
      phase := .dec
      seqK := BitVec.ofNat 32 vs.length
      pos := BitVec.ofNat 32 (i.len.toNat - rest.length)
      decActive := !cut.isEmpty
      decAcc := accumulate 0 0 cut
      decIdx := BitVec.ofNat 4 (min cut.length Config.idxSaturation) }
    buf := { s.buf with vout := Memory.writeSeq s.buf.vout 0 vs } }

/-- A command asks for fewer values than its 32-bit fields can count (00_scope.md R9). -/
theorem decodeLimit_lt (i : Instr) : decodeLimit i < 2 ^ 32 := by
  cases i with
  | encOne => exact Nat.two_pow_pos 32
  | encMany => exact Nat.two_pow_pos 32
  | decOne => exact Nat.one_lt_two_pow (by decide)
  | decFixed _ count => exact count.isLt
  | decAll len _ => exact len.isLt

/-- Input that still holds a value leaves a command unsatisfied that may take one more. -/
theorem satisfied_eq_false_of_ne_nil {i : Instr} {n : Nat} {rest : List Byte} (hn : n < decodeLimit i)
    (hrest : rest ≠ []) : satisfied i n rest = false := by
  cases i <;> simp [satisfied, hrest, hn.ne]

section
variable {i : Instr} {s : State} {vs : List U64} {cut rest : List Byte}

/-- A run of a decode command begins with nothing decoded and all of its input to read (10_state.md R40). -/
theorem State.accept_eq_decodedUpTo_nil (hi : 2 ≤ i.opcode.toNat) :
    s.accept i = s.decodedUpTo i [] [] (s.buf.data i.len) := by
  have hpos : BitVec.ofNat 32 (i.len.toNat - (s.buf.data i.len).length) = 0 := by simp
  rw [State.accept, if_neg (by omega), State.decodedUpTo, hpos]
  rfl

/-- The bytes of a value in flight are in the registers; between values these are 0 (41_decoder.md R130). -/
theorem State.decodedUpTo_inFlight :
    (s.decodedUpTo i vs cut rest).block.inFlight
      = (accumulate 0 0 cut, BitVec.ofNat 4 (min cut.length Config.idxSaturation)) := by
  cases cut <;> rfl

/-- `POS` counts the bytes read. -/
theorem State.decodedUpTo_pos :
    (s.decodedUpTo i vs cut rest).block.pos.toNat = i.len.toNat - rest.length :=
  toNat_ofNat_of_lt ((Nat.sub_le ..).trans_lt i.len.isLt)

section
variable (hsuffix : rest <:+ s.buf.data i.len)
include hsuffix

theorem rest_length_le : rest.length ≤ i.len.toNat :=
  s.buf.data_length i.len ▸ hsuffix.length_le

/-- The input is read to its end exactly when nothing is left. -/
theorem State.decodedUpTo_pos_eq_iff :
    (s.decodedUpTo i vs cut rest).block.pos = (s.decodedUpTo i vs cut rest).block.cmdLen ↔ rest = [] := by
  have hpos := s.decodedUpTo_pos (i := i) (vs := vs) (cut := cut) (rest := rest)
  have hle := rest_length_le hsuffix
  have hlen : (s.decodedUpTo i vs cut rest).block.cmdLen = i.len := rfl
  rw [hlen, BitVec.toNat_eq, hpos, ← List.length_eq_zero_iff]
  omega

/-- Between values, the decoder is done exactly when its command has what it asks for (41_decoder.md R130). -/
theorem State.decodedUpTo_decodeDone (hi : 2 ≤ i.opcode.toNat) (hn : vs.length ≤ decodeLimit i) :
    (s.decodedUpTo i vs [] rest).block.decodeDone = satisfied i vs.length rest := by
  have hseq : (s.decodedUpTo i vs [] rest).block.seqK.toNat = vs.length :=
    toNat_ofNat_of_lt (hn.trans_lt (decodeLimit_lt i))
  have hop : (s.decodedUpTo i vs [] rest).block.cmdOp = i.opcode := rfl
  have hcount : (s.decodedUpTo i vs [] rest).block.cmdCount = i.count := rfl
  have hidle : (s.decodedUpTo i vs [] rest).block.decActive = false := rfl
  rw [Bool.eq_iff_iff, Block.decodeDone_iff, State.decodedUpTo_pos_eq_iff hsuffix, BitVec.toNat_eq (y := 1),
    BitVec.toNat_eq (y := Block.cmdCount _), hseq, hop, hcount]
  cases i with
  | encOne => simp [Instr.opcode] at hi
  | encMany => simp [Instr.opcode] at hi
  | decOne => simp [Instr.opcode, satisfied, decodeLimit, hidle]
  | decFixed => simp [Instr.opcode, Instr.count, satisfied, decodeLimit, hidle]
  | decAll => simp [Instr.opcode, satisfied, hidle]

end

/-- With a byte of a value read, the decoder is not done (41_decoder.md R130). -/
theorem State.decodedUpTo_not_done (hi : 2 ≤ i.opcode.toNat) (hsuffix : rest <:+ s.buf.data i.len)
    (hn : vs.length ≤ decodeLimit i) (hsat : cut = [] → satisfied i vs.length rest = false) :
    (s.decodedUpTo i vs cut rest).block.decodeDone = false := by
  cases cut with
  | nil => rw [State.decodedUpTo_decodeDone hsuffix hi hn, hsat rfl]
  | cons b cut => rfl

section
variable {b : Byte} (hsuffix : b :: rest <:+ s.buf.data i.len)
include hsuffix

/-- The byte to read next is the first of the rest (41_decoder.md R130). -/
theorem State.decodedUpTo_decByte :
    (s.decodedUpTo i vs cut (b :: rest)).decByte = b := by
  obtain ⟨front, hfront⟩ := hsuffix
  have hlen : front.length + (b :: rest).length = i.len.toNat := by
    rw [← List.length_append, hfront, Buffers.data_length]
  have hpos : (s.decodedUpTo i vs cut (b :: rest)).block.pos.toNat = front.length := by
    rw [State.decodedUpTo_pos, ← hlen, Nat.add_sub_cancel]
  have hread : (s.buf.data i.len)[front.length]? = some (s.buf.inp.read front.length) := by
    rw [List.length_cons] at hlen
    simp [Buffers.data, Memory.readSeq, show front.length < i.len.toNat by omega]
  rw [← hfront] at hread
  rw [State.decByte, hpos]
  have hb : s.buf.inp.read front.length = b := by simpa using hread.symm
  exact hb

theorem State.decodedUpTo_decNext :
    (s.decodedUpTo i vs cut (b :: rest)).decNext = accumulate 0 0 (cut ++ [b]) := by
  rw [State.decNext, State.decodedUpTo_inFlight, State.decodedUpTo_decByte hsuffix, addGroup_saturated,
    accumulate_append, Nat.zero_add]
  rfl

/-- Reading one byte moves `POS` on by one. -/
theorem State.decodedUpTo_pos_succ :
    (s.decodedUpTo i vs cut (b :: rest)).block.pos + 1 = BitVec.ofNat 32 (i.len.toNat - rest.length) := by
  have hle := rest_length_le hsuffix
  rw [List.length_cons] at hle
  have h : i.len.toNat - (b :: rest).length + 1 = i.len.toNat - rest.length := by
    rw [List.length_cons]
    omega
  rw [← h, BitVec.ofNat_add]
  rfl

/-- A command that may take one more value goes on while there is input. -/
theorem State.decodedUpTo_consumes (hi : 2 ≤ i.opcode.toNat) (hlt : vs.length < decodeLimit i) :
    (s.decodedUpTo i vs cut (b :: rest)).block.decodeDone = false ∧
      (s.decodedUpTo i vs cut (b :: rest)).block.pos ≠ (s.decodedUpTo i vs cut (b :: rest)).block.cmdLen := by
  have hne := List.cons_ne_nil b rest
  exact ⟨State.decodedUpTo_not_done hi hsuffix hlt.le fun _ => satisfied_eq_false_of_ne_nil hlt hne,
    (State.decodedUpTo_pos_eq_iff hsuffix).not.2 hne⟩

section
variable (hr : s.chan.rst = false) (hi : 2 ≤ i.opcode.toNat) (hlt : vs.length < decodeLimit i)
include hr hi hlt

/-- A byte that more follow is kept with those of its value (41_decoder.md R130). -/
theorem step_decodedUpTo_more (hb : contBitOf b = true) :
    step (s.decodedUpTo i vs cut (b :: rest)) = .next (s.decodedUpTo i vs (cut ++ [b]) rest) := by
  obtain ⟨hdone, hpos⟩ := State.decodedUpTo_consumes (s := s) (cut := cut) hsuffix hi hlt
  have hbyte : contBitOf (s.decodedUpTo i vs cut (b :: rest)).decByte = true := by
    rwa [State.decodedUpTo_decByte hsuffix]
  rw [step_of_dec (s := s.decodedUpTo i vs cut (b :: rest)) hr rfl,
    decStep_of_more hdone hpos hbyte,
    State.decodedUpTo_decNext hsuffix, State.decodedUpTo_pos_succ hsuffix, State.decodedUpTo_inFlight,
    min_succ_idxSaturation]
  simp [State.decodedUpTo]

/-- A terminal byte ends its value, which is written behind the others (41_decoder.md R130). -/
theorem step_decodedUpTo_last (hb : contBitOf b = false) :
    step (s.decodedUpTo i vs cut (b :: rest))
      = .next (s.decodedUpTo i (vs ++ [accumulate 0 0 (cut ++ [b])]) [] rest) := by
  obtain ⟨hdone, hpos⟩ := State.decodedUpTo_consumes (s := s) (cut := cut) hsuffix hi hlt
  have hbyte : contBitOf (s.decodedUpTo i vs cut (b :: rest)).decByte = false := by
    rwa [State.decodedUpTo_decByte hsuffix]
  have hseq : (s.decodedUpTo i vs cut (b :: rest)).block.seqK.toNat = vs.length :=
    toNat_ofNat_of_lt (hlt.trans (decodeLimit_lt i))
  rw [step_of_dec (s := s.decodedUpTo i vs cut (b :: rest)) hr rfl,
    decStep_of_last hdone hpos hbyte,
    State.decodedUpTo_decNext hsuffix, State.decodedUpTo_pos_succ hsuffix, hseq]
  simp only [State.decodedUpTo, List.length_append, List.length_singleton, BitVec.ofNat_add,
    Memory.writeSeq_append, Nat.zero_add]
  rfl

end

end

section
variable (hr : s.chan.rst = false) (hi : 2 ≤ i.opcode.toNat)
include hr hi

/-- Bytes that more follow are read one a step. -/
theorem run_decodedUpTo_more {front : List Byte} (hsuffix : front ++ rest <:+ s.buf.data i.len)
    (hfront : ∀ b ∈ front, contBitOf b = true) (hlt : vs.length < decodeLimit i) :
    run front.length (s.decodedUpTo i vs cut (front ++ rest)) = .next (s.decodedUpTo i vs (cut ++ front) rest) := by
  induction front generalizing cut with
  | nil => rw [List.append_nil]; rfl
  | cons b front ih =>
    obtain ⟨hb, hfront⟩ := List.forall_mem_cons.1 hfront
    have hstep := step_decodedUpTo_more (rest := front ++ rest) (cut := cut) hsuffix hr hi hlt hb
    rw [List.length_cons, List.cons_append, run_succ hstep, ih ((List.suffix_cons ..).trans hsuffix) hfront,
      List.append_assoc, List.singleton_append]

/-- A value is read in as many steps as it has bytes (41_decoder.md R133). -/
theorem run_decodeOne {data : List Byte} {v : U64} (hsuffix : data <:+ s.buf.data i.len)
    (hone : decodeOne data = .ok (v, rest)) (hlt : vs.length < decodeLimit i) :
    run (data.length - rest.length) (s.decodedUpTo i vs [] data) = .next (s.decodedUpTo i (vs ++ [v]) [] rest) := by
  obtain ⟨-, he⟩ | ⟨front, last, rest', rfl, hfront, hlast, hok⟩ := decodeOne_cases data
  · simp [he] at hone
  · obtain ⟨rfl, rfl⟩ : accumulate 0 0 (front ++ [last]) = v ∧ rest' = rest := by
      simpa [hok] using hone
    have hcut := (List.suffix_append front (last :: rest')).trans hsuffix
    have hstep := step_decodedUpTo_last (cut := front) hcut hr hi hlt hlast
    have hsteps : (front ++ last :: rest').length - rest'.length = front.length + 1 := by
      rw [List.length_append, List.length_cons]
      omega
    rw [hsteps, run_add (run_decodedUpTo_more hr hi hsuffix hfront hlt), List.nil_append, run_one hstep]

/-- Values are read in as many steps as they have bytes (41_decoder.md R133). -/
theorem run_decodeFixed {data : List Byte} {us : List U64} (hsuffix : data <:+ s.buf.data i.len)
    (hfixed : decodeFixed data us.length = .ok (us, rest)) (hle : vs.length + us.length ≤ decodeLimit i) :
    run (data.length - rest.length) (s.decodedUpTo i vs [] data) = .next (s.decodedUpTo i (vs ++ us) [] rest) := by
  induction us generalizing vs data with
  | nil =>
    obtain rfl := decodeFixed_nil_iff.1 hfixed
    rw [Nat.sub_self, List.append_nil]
    rfl
  | cons v us ih =>
    obtain ⟨mid, hone, hmany⟩ := decodeFixed_cons_iff.1 hfixed
    rw [List.length_cons] at hle
    have hmid := decodeOne_suffix hone
    have hrest := decodeFixed_suffix hmany
    have hrun := run_decodeOne (vs := vs) hr hi hsuffix hone (by omega)
    have hruns := ih (vs := vs ++ [v]) (hmid.trans hsuffix) hmany
      (by rw [List.length_append, List.length_singleton]; omega)
    have hsteps : data.length - rest.length = (data.length - mid.length) + (mid.length - rest.length) := by
      have := hmid.length_le
      have := hrest.length_le
      omega
    rw [hsteps, run_add hrun, hruns, List.append_assoc, List.singleton_append]

/-- A value that the input ends in is read to its last byte, and the step after it fails (41_decoder.md R133). -/
theorem run_decodeFails (hcut : rest <:+ s.buf.data i.len) (hsat : satisfied i vs.length rest = false)
    (hlt : vs.length < decodeLimit i) (hone : decodeOne rest = .error .unexpectedEndOfInput) :
    run (rest.length + 1) (s.decodedUpTo i vs [] rest)
      = .next (decodeFails vs rest (beginDecode i.opcode i.len i.count s)) := by
  have hmore := (decodeFailsExactlyWithoutTerminalByte rest).1.1 hone
  have hread : run rest.length (s.decodedUpTo i vs [] rest) = .next (s.decodedUpTo i vs rest []) := by
    simpa using run_decodedUpTo_more (vs := vs) (cut := []) (rest := []) (front := rest) hr hi (by simpa) hmore hlt
  have hend := List.nil_suffix (l := s.buf.data i.len)
  have hdone := State.decodedUpTo_not_done (vs := vs) (cut := rest) hi hend hlt.le (fun h => h ▸ hsat)
  have hpos := (State.decodedUpTo_pos_eq_iff (vs := vs) (cut := rest) hend).2 rfl
  have hlen : BitVec.ofNat 32 i.len.toNat = i.len := BitVec.ofNat_toNat ..
  have hstep : step (s.decodedUpTo i vs rest [])
      = .next (decodeFails vs rest (beginDecode i.opcode i.len i.count s)) := by
    rw [step_of_dec (s := s.decodedUpTo i vs rest []) hr rfl, decStep_of_inputEnd hdone hpos]
    simp only [State.decodedUpTo, List.length_nil, Nat.sub_zero, hlen]
    rfl
  rw [run_add hread, run_one hstep]

/-- A satisfied command finishes in the next step (41_decoder.md R130). -/
theorem step_decodeSucceeds (hrest : rest <:+ s.buf.data i.len) (hsat : satisfied i vs.length rest = true)
    (hle : vs.length ≤ decodeLimit i) :
    step (s.decodedUpTo i vs [] rest)
      = .next (decodeSucceeds vs (i.len.toNat - rest.length) (beginDecode i.opcode i.len i.count s)) := by
  have hdone := (State.decodedUpTo_decodeDone hrest hi hle).trans hsat
  rw [step_of_dec (s := s.decodedUpTo i vs [] rest) hr rfl, decStep_of_done hdone]
  rfl

end

/-- The steps after the accept of a decode command that succeeds (41_decoder.md R133). -/
theorem decodeSteps_decodeSucceeds (rest : List Byte) :
    Claims.decodeSteps (decodeSucceeds vs (i.len.toNat - rest.length) s) = i.len.toNat - rest.length + 1 := by
  have hlt : i.len.toNat - rest.length < 2 ^ 32 := (Nat.sub_le ..).trans_lt i.len.isLt
  have hc : (BitVec.ofNat 32 (i.len.toNat - rest.length)).toNat = i.len.toNat - rest.length :=
    toNat_ofNat_of_lt hlt
  rw [Claims.decodeSteps, if_pos (by rfl), decodeSucceeds_block, hc]

/-- The steps after the accept of a decode command whose input ends too early (41_decoder.md R133). -/
theorem decodeSteps_decodeFails (op : BitVec 3) (len count : BitVec 32) :
    Claims.decodeSteps (decodeFails vs cut (beginDecode op len count s)) = len.toNat + 1 := by
  rw [Claims.decodeSteps, if_neg (by simp [decodeFails_block, ErrorKind.code]), decodeFails_block]
  rfl

/-- After its accept, the run of a decode command reaches its meaning: the values, and then the finish, or the bytes of
the value cut short and the failure (41_decoder.md R133). -/
theorem run_decodeSteps {t : State} (hr : s.chan.rst = false) (hi : 2 ≤ i.opcode.toNat) (h : exec i s = .next t) :
    run (Claims.decodeSteps t) (s.decodedUpTo i [] [] (s.buf.data i.len)) = .next t := by
  obtain ⟨vs, cut, -, hfixed, hle, rfl, hend⟩ := exec_decode_cases hi h
  have hcut := decodeFixed_suffix hfixed
  have hrun := run_decodeFixed (vs := []) hr hi List.suffix_rfl hfixed (by simpa using hle)
  have hlen := rest_length_le hcut
  rw [Buffers.data_length, List.nil_append] at hrun
  obtain hsat | ⟨hsat, hlt, hone⟩ := hend
  · rw [decodeOutcome_of_satisfied hsat, decodeSteps_decodeSucceeds, run_add hrun,
      run_one (step_decodeSucceeds hr hi hcut hsat hle)]
  · have hsteps : i.len.toNat + 1 = (i.len.toNat - cut.length) + (cut.length + 1) := by omega
    rw [decodeOutcome_of_not_satisfied hsat, decodeSteps_decodeFails, hsteps, run_add hrun,
      run_decodeFails hr hi hcut hsat hlt hone]

end

/-- Settles O48: the accept step, and the run of the accepted command. -/
theorem decoderLevelsAgree : Obligations.DecoderLevelsAgree := by
  unfold Obligations.DecoderLevelsAgree
  intro s t w rest i h hl hd hi hexec
  have ⟨hr, _, _⟩ := h
  have haccept : run 1 s = .next (s.popCommand.decodedUpTo i [] [] (s.popCommand.buf.data i.len)) := by
    rw [run_one (h.step_microStep hd hl), State.accept_eq_decodedUpTo_nil hi]
  rw [run_add haccept]
  exact run_decodeSteps (s := s.popCommand) hr hi hexec

end Sys2Proof.Machine
end

/-! ## The invariant: what a step and a move of the host do to it -/
section

namespace Sys2Proof.Machine

/-- An encode command is the encoding of its number of values (40_encoder.md R102, R103). -/
theorem exec_encode {i : Instr} (hi : i.opcode.toNat ≤ 1) (s : State) :
    ∃ m : BitVec 32, m.toNat = Claims.encodeValues i ∧
      exec i s = .next (encodeCommand i.opcode i.len i.count m s) := by
  cases i with
  | encOne => exact ⟨1, rfl, rfl⟩
  | encMany _ count => exact ⟨count, rfl, rfl⟩
  | decOne => simp [Instr.opcode] at hi
  | decFixed => simp [Instr.opcode] at hi
  | decAll => simp [Instr.opcode] at hi

/-- Everything a command can do: encode its values, decode what it asks for, or stop where a value is cut short. -/
theorem exec_cases {i : Instr} {s t : State} (h : exec i s = .next t) :
    (i.opcode.toNat ≤ 1 ∧ ∃ m : BitVec 32, m.toNat = Claims.encodeValues i ∧
      t = encodeCommand i.opcode i.len i.count m s) ∨
    (2 ≤ i.opcode.toNat ∧ ∃ vs rest, vs.length < 2 ^ 32 ∧
      (t = decodeSucceeds vs (i.len.toNat - rest.length) (beginDecode i.opcode i.len i.count s) ∨
        t = decodeFails vs rest (beginDecode i.opcode i.len i.count s))) := by
  obtain hi | hi := Nat.lt_or_ge 1 i.opcode.toNat
  · obtain ⟨vs, rest, -, -, hle, rfl, -⟩ := exec_decode_cases hi h
    refine .inr ⟨hi, vs, rest, hle.trans_lt (decodeLimit_lt i), ?_⟩
    cases hsat : satisfied i vs.length rest
    · exact .inr (decodeOutcome_of_not_satisfied hsat s)
    · exact .inl (decodeOutcome_of_satisfied hsat s)
  · obtain ⟨m, hm, ht⟩ := exec_encode hi s
    exact .inl ⟨hi, m, hm, Host.Outcome.next.inj (h.symm.trans ht)⟩

section
variable {b : Block}

/-- The invariant of a block in which no unit runs. -/
theorem Block.Inv.of_quiet (hphase : b.phase = .idle ∨ b.phase = .rsp) (hstatus : b.rspStatus ≠ 2)
    (herror : b.rspStatus ≠ 0 → b.rspConsumed = 0 ∧ b.rspNvalues = 0 ∧ b.rspNbytes = 0)
    (henc : b.encActive = false) (hdec : b.decActive = false) (hidx : b.decIdx.toNat ≤ Config.idxSaturation) :
    b.Inv := by
  have hne : b.phase ≠ .enc ∧ b.phase ≠ .dec := by
    obtain h | h := hphase <;> simp [h]
  obtain ⟨hne, hnd⟩ := hne
  constructor <;> simp_all

/-- No value is in flight in the encoder outside `ENC` (60_exceptions.md R166). -/
theorem Block.Inv.encActive_eq_false (h : b.Inv) (hp : b.phase ≠ .enc) : b.encActive = false :=
  Bool.eq_false_iff.2 fun ha => hp (h.encActive_in_enc ha)

/-- No value is in flight in the decoder outside `DEC` (60_exceptions.md R166). -/
theorem Block.Inv.decActive_eq_false (h : b.Inv) (hp : b.phase ≠ .dec) : b.decActive = false :=
  Bool.eq_false_iff.2 fun ha => hp (h.decActive_in_dec ha)

/-- The invariant of a block in which the encoder runs. -/
theorem Block.Inv.of_enc (hphase : b.phase = .enc) (hstatus : b.rspStatus ≠ 2)
    (herror : b.rspStatus ≠ 0 → b.rspConsumed = 0 ∧ b.rspNvalues = 0 ∧ b.rspNbytes = 0)
    (hdec : b.decActive = false) (hidx : b.decIdx.toNat ≤ Config.idxSaturation) (hop : b.cmdOp.toNat ≤ 1)
    (hcount : b.seqK.toNat + b.encActive.toNat ≤ b.encodeCount.toNat)
    (hbytes : b.nbytes.toNat + (if b.encActive then (encodeLoop Config.maxEncLen b.encRem).length else 0)
      ≤ Config.maxEncLen * (b.seqK.toNat + b.encActive.toNat)) : b.Inv := by
  constructor <;> simp_all

/-- The invariant of a block in which the decoder runs. -/
theorem Block.Inv.of_dec (hphase : b.phase = .dec) (hstatus : b.rspStatus ≠ 2)
    (herror : b.rspStatus ≠ 0 → b.rspConsumed = 0 ∧ b.rspNvalues = 0 ∧ b.rspNbytes = 0)
    (henc : b.encActive = false) (hop : 2 ≤ b.cmdOp.toNat ∧ b.cmdOp.toNat ≤ 4)
    (hpos : b.pos.toNat ≤ b.cmdLen.toNat) (hvalues : b.seqK.toNat + b.decActive.toNat ≤ b.pos.toNat)
    (hone : b.cmdOp = 2 → b.seqK.toNat + b.decActive.toNat ≤ 1)
    (hfixed : b.cmdOp = 3 → b.seqK.toNat + b.decActive.toNat ≤ b.cmdCount.toNat)
    (hidx : b.decIdx.toNat ≤ Config.idxSaturation)
    (hflight : b.decActive = true → 1 ≤ b.decIdx.toNat ∧ b.decIdx.toNat ≤ b.pos.toNat)
    (hbetween : b.decActive = false → b.decAcc = 0 ∧ b.decIdx = 0) : b.Inv := by
  constructor <;> simp_all

/-- Finishing without an error keeps the invariant, whatever is reported (10_state.md R41). -/
theorem Block.Inv.finish_ok (hidx : b.decIdx.toNat ≤ Config.idxSaturation) (c n : BitVec 32) (nb : BitVec 36) :
    (b.finish statusOk c n nb).Inv :=
  .of_quiet (.inr rfl) (by simp [statusOk]) (fun h => absurd rfl h) rfl rfl hidx

/-- An error reports nothing and keeps the invariant (60_exceptions.md R153). -/
theorem Block.Inv.raise (hidx : b.decIdx.toNat ≤ Config.idxSaturation) (e : ErrorKind) : (b.raise e).Inv :=
  .of_quiet (.inr rfl) (by cases e <;> simp [ErrorKind.code]) (fun _ => ⟨rfl, rfl, rfl⟩) rfl rfl hidx

theorem Block.inv_reset : Block.reset.Inv :=
  .of_quiet (.inl rfl) (by decide) (fun h => absurd rfl h) rfl rfl (by decide)

/-- The response hand-off keeps the invariant: no unit runs in `RSP` (10_state.md R42). -/
theorem Block.Inv.handOff (h : b.Inv) (hp : b.phase = .rsp) : ({ b with phase := .idle } : Block).Inv :=
  .of_quiet (.inl rfl) h.status_not_reserved h.error_reports_nothing (h.encActive_eq_false (by simp [hp]))
    (h.decActive_eq_false (by simp [hp])) h.decIdx_saturates

end

/-- A command keeps the buffers canonical and leaves a block in which no unit runs. -/
theorem exec_inv {i : Instr} {s t : State} (hs : s.buf.wf = true) (h : exec i s = .next t) : t.Inv := by
  obtain ⟨hinp, hvin, hout, hvout⟩ := s.buf.wf_iff.1 hs
  obtain ⟨-, m, -, rfl⟩ | ⟨-, vs, rest, hvs, rfl | rfl⟩ := exec_cases h
  · have hbytes := (encodeMany_values_length_lt s.buf m).le
    exact ⟨(Buffers.wf_iff _).2 ⟨hinp, hvin, Memory.writeSeq_wf hout (by omega), hvout⟩,
      .finish_ok (by simp) ..⟩
  · exact ⟨(Buffers.wf_iff _).2 ⟨hinp, hvin, hout, Memory.writeSeq_wf hvout (by omega)⟩, .finish_ok (by simp) ..⟩
  · have hidx := (toNat_saturated rest.length).trans_le (Nat.min_le_right ..)
    exact ⟨(Buffers.wf_iff _).2 ⟨hinp, hvin, hout, Memory.writeSeq_wf hvout (by omega)⟩, .raise hidx _⟩

/-- The opcode of a command is one of the five (30_encoding.md R79). -/
theorem opcode_le_four (i : Instr) : i.opcode.toNat ≤ 4 := by
  cases i <;> simp [Instr.opcode]

/-- Accepting a command keeps the invariant: all counters are 0 (10_state.md R40). -/
theorem Block.Inv.accept {b : Block} (h : b.Inv) (i : Instr) :
    ({ b.latch i.opcode i.len i.count with phase := if i.opcode.toNat ≤ 1 then .enc else .dec } : Block).Inv := by
  by_cases hi : i.opcode.toNat ≤ 1
  · rw [if_pos hi]
    exact .of_enc rfl h.status_not_reserved h.error_reports_nothing rfl (by simp) hi (by simp) (by simp)
  · rw [if_neg hi]
    exact .of_dec rfl h.status_not_reserved h.error_reports_nothing rfl ⟨by simp; omega, opcode_le_four i⟩ (by simp)
      (by simp) (by simp) (by simp) (by simp) (by simp) (by simp)

/-- Fuel beyond what the value needs changes nothing (40_encoder.md R101). -/
theorem encodeLoop_succ_fuel {fuel : Nat} {r : U64} (hf : fuel ≠ 0) (hr : r.toNat < 2 ^ (7 * fuel)) :
    encodeLoop (fuel + 1) r = encodeLoop fuel r := by
  induction fuel generalizing r with
  | zero => exact absurd rfl hf
  | succ fuel ih =>
    by_cases h : r >>> 7 = 0
    · rw [encodeLoop_of_last _ h, encodeLoop_of_last _ h]
    · have hrest := shiftGroup_lt hr
      have hfuel := fuel_ne_zero_of_more hr h
      rw [encodeLoop_of_more _ h, encodeLoop_of_more fuel h, ih hfuel hrest]

/-- A byte that leaves something over is one of those the value still needed (40_encoder.md R105). -/
theorem encodeLoop_length_shiftGroup {r : U64} (h : r >>> 7 ≠ 0) :
    (encodeLoop Config.maxEncLen r).length = (encodeLoop Config.maxEncLen (r >>> 7)).length + 1 := by
  have hrest : (r >>> 7).toNat < 2 ^ (7 * 9) := by
    rw [BitVec.toNat_ushiftRight, Nat.shiftRight_eq_div_pow]
    omega
  exact (congrArg _ (encodeLoop_of_more 9 h)).trans
    (congrArg (·.length + 1) (encodeLoop_succ_fuel (by decide) hrest).symm)

section
variable {s : State}

/-- The emitted byte is within the ten bytes a value of the values asked for, and the value in flight is one of them
(40_encoder.md R105, 00_scope.md R11). -/
theorem Block.Inv.emit_bounds {b : Block} (h : b.Inv) (hp : b.phase = .enc) (ha : b.encActive = true) :
    b.seqK.toNat + 1 ≤ b.encodeCount.toNat ∧
      b.nbytes.toNat + (encodeLoop Config.maxEncLen b.encRem).length ≤ 10 * (b.seqK.toNat + 1) := by
  have hcount := h.enc_count hp
  have hbytes := h.enc_bytes hp
  rw [ha, Bool.toNat_true] at hcount hbytes
  exact ⟨hcount, hbytes⟩

/-- The counters of the encoder after a byte: no wrap (00_scope.md R11). -/
theorem Block.Inv.emit_counters {b : Block} (h : b.Inv) (hp : b.phase = .enc) (ha : b.encActive = true) :
    (b.nbytes + 1).toNat = b.nbytes.toNat + 1 ∧ (b.seqK + 1).toNat = b.seqK.toNat + 1 := by
  obtain ⟨hcount, hbytes⟩ := h.emit_bounds hp ha
  have hlt := b.encodeCount.isLt
  bv_omega

/-- Emitting a byte keeps the invariant (40_encoder.md R105). -/
theorem Block.Inv.byteEmitted (h : s.block.Inv) (hp : s.block.phase = .enc) (ha : s.block.encActive = true) :
    s.byteEmitted.block.Inv := by
  have hdec := h.decActive_eq_false (by simp [hp])
  obtain ⟨hcount, hbytes⟩ := h.emit_bounds hp ha
  obtain ⟨hnbytes, hseq⟩ := h.emit_counters hp ha
  have hasked : s.byteEmitted.block.encodeCount = s.block.encodeCount := rfl
  have hn : s.byteEmitted.block.nbytes = s.block.nbytes + 1 := rfl
  by_cases hrem : s.block.encRem >>> 7 = 0
  · have hlast : s.byteEmitted.block.encActive = false := by simp [State.byteEmitted, hrem]
    have hk : s.byteEmitted.block.seqK = s.block.seqK + 1 := if_pos hrem
    have hpos := encodeLoop_length_pos (fuel := Config.maxEncLen) (by decide) s.block.encRem
    refine .of_enc hp h.status_not_reserved h.error_reports_nothing hdec h.decIdx_saturates (h.enc_opcode hp) ?_ ?_
    · rwa [hk, hseq, hlast, hasked]
    · rw [hk, hseq, hlast, hn, hnbytes, if_neg Bool.false_ne_true, Bool.toNat_false, Config.maxEncLen]
      omega
  · have hmore : s.byteEmitted.block.encActive = true := decide_eq_true hrem
    have hk : s.byteEmitted.block.seqK = s.block.seqK := if_neg hrem
    have hr : s.byteEmitted.block.encRem = s.block.encRem >>> 7 := rfl
    have hlen := encodeLoop_length_shiftGroup hrem
    refine .of_enc hp h.status_not_reserved h.error_reports_nothing hdec h.decIdx_saturates (h.enc_opcode hp) ?_ ?_
    · rwa [hk, hmore, hasked]
    · rw [hk, hmore, hn, hnbytes, if_pos rfl, hr, Bool.toNat_true]
      simp only [Config.maxEncLen] at *
      omega

/-- Fetching a value keeps the invariant: its ten bytes at most fit with those of the values before it (40_encoder.md
R104). -/
theorem Block.Inv.valueFetched (h : s.block.Inv) (hp : s.block.phase = .enc) (ha : s.block.encActive = false)
    (hk : s.block.seqK ≠ s.block.encodeCount) (v : U64) : (s.valueFetched v).block.Inv := by
  have hdec := h.decActive_eq_false (by simp [hp])
  have hcount := h.enc_count hp
  have hbytes := h.enc_bytes hp
  have hlen := encodeLoop_length_le Config.maxEncLen v
  rw [ha, Bool.toNat_false, Nat.add_zero] at hcount hbytes
  rw [if_neg Bool.false_ne_true, Nat.add_zero] at hbytes
  refine .of_enc hp h.status_not_reserved h.error_reports_nothing hdec h.decIdx_saturates (h.enc_opcode hp) ?_ ?_
  · exact lt_of_le_of_ne hcount fun heq => hk (BitVec.eq_of_toNat_eq heq)
  · change s.block.nbytes.toNat + (encodeLoop Config.maxEncLen v).length ≤ Config.maxEncLen * (s.block.seqK.toNat + 1)
    rw [Nat.mul_succ]
    exact Nat.add_le_add hbytes hlen

/-- The encoder keeps the invariant. -/
theorem State.Inv.encStep (h : s.Inv) (hp : s.block.phase = .enc) : (encStep s).Inv := by
  obtain ⟨hbuf, hblock⟩ := h
  obtain ⟨-, -, ht⟩ | ⟨ha, hk, ht⟩ | ⟨ha, ht⟩ := encStep_cases s <;> rw [ht]
  · exact ⟨hbuf, .finish_ok hblock.decIdx_saturates ..⟩
  · exact ⟨hbuf, hblock.valueFetched hp ha hk _⟩
  · obtain ⟨hinp, hvin, hout, hvout⟩ := s.buf.wf_iff.1 hbuf
    exact ⟨(Buffers.wf_iff _).2 ⟨hinp, hvin, Memory.write_wf hout s.block.nbytes.isLt, hvout⟩,
      hblock.byteEmitted hp ha⟩

section
variable {b : Block} (h : b.Inv) (hp : b.phase = .dec)
include h hp

/-- A byte to read lies within the input, and the counters of the decoder do not wrap (20_memory.md R53, 00_scope.md
R11). -/
theorem Block.Inv.consume_counters (hpos : b.pos ≠ b.cmdLen) :
    b.pos.toNat < b.cmdLen.toNat ∧ (b.pos + 1).toNat = b.pos.toNat + 1 ∧
      (b.seqK + 1).toNat = b.seqK.toNat + 1 := by
  have hle := h.dec_pos hp
  have hvalues := h.dec_values hp
  have hlt : b.pos.toNat < b.cmdLen.toNat := lt_of_le_of_ne hle fun heq => hpos (BitVec.eq_of_toNat_eq heq)
  have hlen := b.cmdLen.isLt
  refine ⟨hlt, ?_, ?_⟩ <;> bv_omega

/-- While a byte is read, DEC_ONE and DEC_FIXED still ask for the value it belongs to (20_memory.md R51). -/
theorem Block.Inv.consume_bounds (hd : b.decodeDone = false) :
    b.seqK.toNat + 1 ≤ b.pos.toNat + 1 ∧ (b.cmdOp = 2 → b.seqK.toNat + 1 ≤ 1) ∧
      (b.cmdOp = 3 → b.seqK.toNat + 1 ≤ b.cmdCount.toNat) := by
  have hvalues := h.dec_values hp
  have hone := h.dec_one_count hp
  have hfixed := h.dec_fixed_count hp
  cases ha : b.decActive
  · have hnot : ¬ ((b.cmdOp = 2 ∧ b.seqK = 1) ∨ (b.cmdOp = 3 ∧ b.seqK = b.cmdCount) ∨
        (b.cmdOp = 4 ∧ b.pos = b.cmdLen)) := by
      simpa [ha, hd] using b.decodeDone_iff.symm
    simp only [ha, Bool.toNat_false, Nat.add_zero] at hvalues hone hfixed
    refine ⟨by omega, fun hop => ?_, fun hop => ?_⟩
    · have hne : b.seqK ≠ 1 := fun heq => hnot (.inl ⟨hop, heq⟩)
      have := hone hop
      bv_omega
    · have hne : b.seqK ≠ b.cmdCount := fun heq => hnot (.inr (.inl ⟨hop, heq⟩))
      have := hfixed hop
      bv_omega
  · rw [ha, Bool.toNat_true] at hvalues hone hfixed
    exact ⟨by omega, hone, hfixed⟩

end

/-- The bytes of the value in flight have been read. -/
theorem Block.Inv.inFlight_le_pos {b : Block} (h : b.Inv) : b.inFlight.2.toNat ≤ b.pos.toNat := by
  rw [Block.inFlight_snd_toNat]
  split
  · exact (h.decIdx_in_flight ‹_›).2
  · exact Nat.zero_le _

/-- The decoder keeps the invariant. -/
theorem State.Inv.decStep (h : s.Inv) (hp : s.block.phase = .dec) : (decStep s).Inv := by
  obtain ⟨hbuf, hblock⟩ := h
  have henc := hblock.encActive_eq_false (by simp [hp])
  obtain ⟨-, ht⟩ | ⟨-, -, ht⟩ | ⟨hd, hpos, -, ht⟩ | ⟨hd, hpos, -, ht⟩ := decStep_cases s <;> rw [ht]
  · exact ⟨hbuf, .finish_ok hblock.decIdx_saturates ..⟩
  · exact ⟨hbuf, .raise hblock.decIdx_saturates _⟩
  · obtain ⟨hlt, hnext, -⟩ := hblock.consume_counters hp hpos
    obtain ⟨hvalues, hone, hfixed⟩ := hblock.consume_bounds hp hd
    have hflight := hblock.inFlight_le_pos
    have hidx := toNat_saturated (s.block.inFlight.2.toNat + 1)
    refine ⟨hbuf, .of_dec hp hblock.status_not_reserved hblock.error_reports_nothing henc (hblock.dec_opcode hp)
      ?_ ?_ hone hfixed ?_ (fun _ => ?_) (by simp)⟩
    · rwa [hnext]
    · rwa [hnext]
    · rw [hidx]; exact Nat.min_le_right ..
    · rw [hidx, hnext, Config.idxSaturation]; omega
  · obtain ⟨hlt, hnext, hseq⟩ := hblock.consume_counters hp hpos
    obtain ⟨hvalues, hone, hfixed⟩ := hblock.consume_bounds hp hd
    obtain ⟨hinp, hvin, hout, hvout⟩ := s.buf.wf_iff.1 hbuf
    refine ⟨(Buffers.wf_iff _).2 ⟨hinp, hvin, hout, Memory.write_wf hvout s.block.seqK.isLt⟩,
      .of_dec hp hblock.status_not_reserved hblock.error_reports_nothing henc (hblock.dec_opcode hp)
      ?_ ?_ ?_ ?_ (by simp) (by simp) (by simp)⟩
    · rwa [hnext]
    · rwa [hnext, hseq]
    · rwa [hseq]
    · rwa [hseq]

end

/-- Settles O50: each case of a step by the lemma about it. -/
theorem stepKeepsInvariant : Obligations.StepKeepsInvariant := by
  unfold Obligations.StepKeepsInvariant
  intro s t h hstep
  have ⟨hbuf, hblock⟩ := h
  obtain ⟨-, rfl⟩ | ⟨-, -, -, rfl⟩ | ⟨w, rest, i, -, -, -, -, -, hexec⟩ | ⟨w, rest, i, -, -, -, -, -, rfl⟩ |
    ⟨w, rest, e, -, -, -, -, rfl⟩ | ⟨-, hp, rfl⟩ | ⟨-, hp, rfl⟩ | ⟨-, hp, -, rfl⟩ | ⟨-, -, -, rfl⟩ := step_cases hstep
  · exact ⟨hbuf, Block.inv_reset⟩
  · exact h
  · exact exec_inv (s := s.popCommand) hbuf hexec
  · exact ⟨hbuf, hblock.accept i⟩
  · exact ⟨hbuf, .raise (by simp) _⟩
  · exact h.encStep hp
  · exact h.decStep hp
  · exact ⟨hbuf, hblock.handOff hp⟩
  · exact h

/-- Settles O49: the reset block meets the invariant, and empty buffers are canonical. -/
theorem resetSatisfiesInvariant : Obligations.ResetSatisfiesInvariant := by
  unfold Obligations.ResetSatisfiesInvariant
  exact ⟨by decide, Block.inv_reset⟩

/-- A move of the host changes no register, and keeps the buffers canonical: a written offset is within its range. -/
theorem HostMove.apply_inv {s : State} (m : HostMove) (h : s.Inv) : (m.apply s).Inv := by
  obtain ⟨hbuf, hblock⟩ := h
  have ⟨hinp, hvin, hout, hvout⟩ := s.buf.wf_iff.1 hbuf
  cases m with
  | offer | driveRspReady | driveRst | chooseLevel => exact ⟨hbuf, hblock⟩
  | placeIn k v => exact ⟨(Buffers.wf_iff _).2 ⟨Memory.write_wf hinp k.isLt, hvin, hout, hvout⟩, hblock⟩
  | placeVin k v => exact ⟨(Buffers.wf_iff _).2 ⟨hinp, Memory.write_wf hvin k.isLt, hout, hvout⟩, hblock⟩
  | placeOut k v => exact ⟨(Buffers.wf_iff _).2 ⟨hinp, hvin, Memory.write_wf hout k.isLt, hvout⟩, hblock⟩
  | placeVout k v => exact ⟨(Buffers.wf_iff _).2 ⟨hinp, hvin, hout, Memory.write_wf hvout k.isLt⟩, hblock⟩

/-- Settles O51: by induction on how the state is reached. -/
theorem reachableStatesSatisfyInvariant : Obligations.ReachableStatesSatisfyInvariant := by
  unfold Obligations.ReachableStatesSatisfyInvariant
  refine ⟨fun s m h _ => m.apply_inv h, fun s h => ?_⟩
  induction h with
  | reset => exact resetSatisfiesInvariant
  | step _ hstep ih => exact stepKeepsInvariant _ _ ih hstep
  | host m _ _ ih => exact m.apply_inv ih

/-- Settles O52: the step is the one that consumes a byte, whose counters do not wrap. -/
theorem decoderReadsInputInOrder : Obligations.DecoderReadsInputInOrder := by
  unfold Obligations.DecoderReadsInputInOrder
  intro s t off h hrd hstep
  obtain ⟨hr, hp, hd, hpos⟩ := s.ports_inRd_iff.1 (by simp [hrd])
  obtain rfl : off = s.block.pos := by
    simpa [State.ports_inRd_of_consume hr hp hd hpos, eq_comm] using hrd
  obtain ⟨hlt, hnext, -⟩ := h.block.consume_counters hp hpos
  obtain rfl : decStep s = t := Host.Outcome.next.inj ((step_of_dec hr hp).symm.trans hstep)
  cases hc : contBitOf s.decByte
  · rw [decStep_of_last hd hpos hc]
    exact ⟨rfl, hlt, hnext, hp, rfl⟩
  · rw [decStep_of_more hd hpos hc]
    exact ⟨rfl, hlt, hnext, hp, rfl⟩

/-- Settles O53: the step is the one that emits a byte, within the bounds and counters of the invariant. -/
theorem encoderCountersNeverWrap : Obligations.EncoderCountersNeverWrap := by
  unfold Obligations.EncoderCountersNeverWrap
  intro s t off b h hwr hstep
  obtain ⟨hr, hp, ha⟩ := s.ports_outWr_iff.1 (by simp [hwr])
  obtain ⟨rfl, -⟩ : s.block.nbytes = off ∧ s.block.encByte = b := by
    simpa [State.ports_outWr_of_active hr hp ha] using hwr
  obtain ⟨hcount, hbytes⟩ := h.block.emit_bounds hp ha
  obtain ⟨hnbytes, hseq⟩ := h.block.emit_counters hp ha
  have hpos := encodeLoop_length_pos (fuel := Config.maxEncLen) (by decide) s.block.encRem
  obtain rfl : s.byteEmitted = t := Host.Outcome.next.inj ((step_of_emit hr hp ha).symm.trans hstep)
  refine ⟨by omega, hnbytes, fun hlast => ?_, fun hmore => ?_⟩
  · have hrem : s.block.encRem >>> 7 = 0 := by simpa [State.byteEmitted] using hlast
    exact (congrArg BitVec.toNat (if_pos hrem)).trans hseq
  · exact if_neg (of_decide_eq_true hmore)

end Sys2Proof.Machine
end

/-! ## The wire format: length, framing and canonical form of an encoding -/
section

namespace Sys2Proof.Claims

open Sys2Proof.Machine

/-- The bit length is the least number of bits the value fits (30_encoding.md R73). -/
theorem bitLength_le_iff (v : U64) (k : Nat) : bitLength v ≤ k ↔ v.toNat < 2 ^ k := by
  by_cases h : v = 0
  · simp [bitLength, h]
  · have hne : v.toNat ≠ 0 := fun h0 => h (BitVec.eq_of_toNat_eq h0)
    rw [bitLength, if_neg h, Nat.add_one_le_iff, Nat.log2_lt hne]

/-- A value fits a group exactly when nothing is left over it. -/
theorem shiftGroup_eq_zero_iff (r : U64) : r >>> 7 = 0 ↔ bitLength r ≤ 7 := by
  rw [bitLength_le_iff, BitVec.toNat_eq, BitVec.toNat_ushiftRight, Nat.shiftRight_eq_div_pow]
  exact Nat.div_eq_zero_iff_lt (Nat.two_pow_pos 7)

/-- A shift by one group takes seven bits off. -/
theorem bitLength_shiftGroup (r : U64) : bitLength (r >>> 7) = bitLength r - 7 := by
  apply eq_of_forall_ge_iff
  intro k
  rw [Nat.sub_le_iff_le_add, bitLength_le_iff, bitLength_le_iff, BitVec.toNat_ushiftRight,
    Nat.shiftRight_eq_div_pow, Nat.div_lt_iff_lt_mul (Nat.two_pow_pos 7), ← pow_add]

/-- One byte is framed when it is terminal. -/
theorem framed_singleton {b : Byte} (h : contBitOf b = false) : Framed [b] :=
  ⟨[], b, rfl, by simp, h⟩

/-- A byte that more follow goes before a framed sequence. -/
theorem Framed.cons {b : Byte} {e : List Byte} (hb : contBitOf b = true) (he : Framed e) : Framed (b :: e) := by
  obtain ⟨front, last, rfl, hfront, hlast⟩ := he
  exact ⟨b :: front, last, rfl, List.forall_mem_cons.2 ⟨hb, hfront⟩, hlast⟩

/-- A byte whose group is 0 carries the value 0, when nothing is left over it. -/
theorem groupByte_ne_zero {r : U64} (hr : r ≠ 0) (hlast : r >>> 7 = 0) : groupByte r false ≠ 0 := by
  intro h
  have hgroup := lowGroup_or_shiftGroup r
  rw [← groupOf_groupByte r false, h, hlast] at hgroup
  exact hr (hgroup.symm.trans (by decide))

section
variable {fuel : Nat} {r : U64} (hf : fuel ≠ 0) (hr : r.toNat < 2 ^ (7 * fuel))
include hf hr

/-- What the loop emits while the fuel lasts: a terminal byte last, and a byte that more follow before it
(40_encoder.md R100). -/
theorem encodeLoop_induction {P : U64 → List Byte → Prop}
    (last : ∀ r : U64, r >>> 7 = 0 → P r [groupByte r false])
    (more : ∀ (r : U64) (bytes : List Byte), r >>> 7 ≠ 0 → P (r >>> 7) bytes → P r (groupByte r true :: bytes)) :
    P r (encodeLoop fuel r) := by
  induction fuel generalizing r with
  | zero => exact absurd rfl hf
  | succ fuel ih =>
    by_cases h : r >>> 7 = 0
    · rw [encodeLoop_of_last fuel h]
      exact last r h
    · have hrest := shiftGroup_lt hr
      have hfuel := fuel_ne_zero_of_more hr h
      rw [encodeLoop_of_more fuel h]
      exact more r _ h (ih hfuel hrest)

end

/-- `encodeLoop_induction` for the encoding of a whole value. -/
theorem encodeOne_induction {P : U64 → List Byte → Prop}
    (last : ∀ r : U64, r >>> 7 = 0 → P r [groupByte r false])
    (more : ∀ (r : U64) (bytes : List Byte), r >>> 7 ≠ 0 → P (r >>> 7) bytes → P r (groupByte r true :: bytes))
    (v : U64) : P v (encodeOne v) := by
  rw [encodeOne_eq_encodeLoop]
  exact encodeLoop_induction (by decide) (v.isLt.trans (by decide)) last more

/-- One byte a group of seven bits, and one byte for the value 0 (40_encoder.md R101). -/
theorem encodeOne_length (v : U64) : (encodeOne v).length = max 1 ((bitLength v + 6) / 7) := by
  refine encodeOne_induction (P := fun v bytes => bytes.length = max 1 ((bitLength v + 6) / 7)) ?_ ?_ v
  · intro r hlast
    have := (shiftGroup_eq_zero_iff r).1 hlast
    rw [List.length_singleton]
    omega
  · intro r bytes hmore ih
    have := (shiftGroup_eq_zero_iff r).not.1 hmore
    rw [List.length_cons, ih, bitLength_shiftGroup]
    omega

/-- Every byte but the last has bit 7 set (40_encoder.md R101). -/
theorem framed_encodeOne (v : U64) : Framed (encodeOne v) := by
  refine encodeOne_induction (P := fun _ bytes => Framed bytes) ?_ ?_ v
  · exact fun r _ => framed_singleton (contBitOf_groupByte r false)
  · exact fun r _ _ ih => ih.cons (contBitOf_groupByte r true)

/-- The encoding of a value other than 0 ends in a byte other than 0 (30_encoding.md R73). -/
theorem encodeOne_last_ne_zero {v : U64} (hv : v ≠ 0) : ∃ front last, encodeOne v = front ++ [last] ∧ last ≠ 0 := by
  refine encodeOne_induction (P := fun v bytes => v ≠ 0 → ∃ front last, bytes = front ++ [last] ∧ last ≠ 0)
    ?_ ?_ v hv
  · exact fun r hlast hr => ⟨[], groupByte r false, rfl, groupByte_ne_zero hr hlast⟩
  · intro r bytes hmore ih _
    obtain ⟨front, last, rfl, hne⟩ := ih hmore
    exact ⟨groupByte r true :: front, last, rfl, hne⟩

theorem encodeOne_getLast_ne_zero {v : U64} (hv : v ≠ 0) (b : Byte) (hb : (encodeOne v).getLast? = some b) :
    b ≠ 0 := by
  obtain ⟨front, last, he, hne⟩ := encodeOne_last_ne_zero hv
  obtain rfl : last = b := by simpa [he] using hb
  exact hne

/-- Settles O8: by induction along the bytes the loop emits. -/
theorem encodingIsMinimalAndCanonical : Obligations.EncodingIsMinimalAndCanonical := by
  unfold Obligations.EncodingIsMinimalAndCanonical
  intro v
  exact ⟨encodeOne_length v, encodeOne_length_pos v, encodeOne_length_le v, framed_encodeOne v,
    encodeOne_getLast_ne_zero, fun h => if_pos h⟩

/-- Settles O9: decoding an encoding gives the value back. -/
theorem encodingIsInjective : Obligations.EncodingIsInjective := by
  unfold Obligations.EncodingIsInjective
  intro v v' h
  have hv := decodeOne_encodeOne_append v []
  rw [h, decodeOne_encodeOne_append v' []] at hv
  simpa [eq_comm] using hv

/-- Settles O14: what is left of an encoding that lost its last byte is bytes that more should follow. -/
theorem truncatedEncodingFails : Obligations.TruncatedEncodingFails := by
  unfold Obligations.TruncatedEncodingFails
  intro v k hk
  obtain ⟨front, last, he, hfront, -⟩ := framed_encodeOne v
  rw [he, List.length_append, List.length_singleton] at hk
  rw [he, List.take_append_of_le_length (by omega)]
  exact decodeOne_of_unterminated fun b hb => hfront b (List.mem_of_mem_take hb)

end Sys2Proof.Claims
end

/-! ## Over-long and non-canonical input: the value a framed sequence carries -/
section

namespace Sys2Proof.Claims

open Sys2Proof.Machine

/-- The OR of the groups is the decoder's accumulator, from any byte index on (41_decoder.md R120). -/
theorem foldl_zipIdx_eq_accumulate (e : List Byte) (i : Nat) (acc : U64) :
    (e.zipIdx i).foldl (fun acc p => acc ||| shl64 ((p.1.extractLsb' 0 7).setWidth 64) (7 * p.2)) acc
      = accumulate i acc e := by
  induction e generalizing i acc with
  | nil => rfl
  | cons b e ih => exact ih (i + 1) _

/-- `carried` from a byte index on (30_encoding.md R72). -/
def carriedFrom (i : Nat) (e : List Byte) : Nat :=
  ((e.zipIdx i).map fun p => (p.1.toNat % 2 ^ 7) * 2 ^ (7 * p.2)).sum

theorem carriedFrom_cons (i : Nat) (b : Byte) (e : List Byte) :
    carriedFrom i (b :: e) = b.toNat % 2 ^ 7 * 2 ^ (7 * i) + carriedFrom (i + 1) e := by
  simp [carriedFrom]

/-- A group above the bits of a number is added to it by the OR (41_decoder.md R122). -/
theorem or_shl64_group (n i : Nat) (b : Byte) (hn : n < 2 ^ (7 * i)) :
    BitVec.ofNat 64 n ||| shl64 (groupOf b) (7 * i)
      = BitVec.ofNat 64 (n + b.toNat % 2 ^ 7 * 2 ^ (7 * i)) := by
  have hor : n + b.toNat % 2 ^ 7 * 2 ^ (7 * i) = n ||| b.toNat % 2 ^ 7 * 2 ^ (7 * i) := by
    rw [Nat.add_comm, Nat.or_comm, ← Nat.shiftLeft_eq, Nat.shiftLeft_add_eq_or_of_lt hn]
  rw [hor, BitVec.ofNat_or, shl64, groupOf_toNat]

/-- The accumulator is the sum of the groups, mod 2^64 (41_decoder.md R122). -/
theorem accumulate_eq_carriedFrom (e : List Byte) (n i : Nat) (hn : n < 2 ^ (7 * i)) :
    accumulate i (BitVec.ofNat 64 n) e = BitVec.ofNat 64 (n + carriedFrom i e) := by
  induction e generalizing n i with
  | nil => rfl
  | cons b e ih =>
    have hgroup : b.toNat % 2 ^ 7 * 2 ^ (7 * i) ≤ (2 ^ 7 - 1) * 2 ^ (7 * i) :=
      Nat.mul_le_mul_right _ (Nat.le_sub_one_of_lt (Nat.mod_lt _ (Nat.two_pow_pos 7)))
    have hnext : n + b.toNat % 2 ^ 7 * 2 ^ (7 * i) < 2 ^ (7 * (i + 1)) := by
      rw [Nat.mul_succ, pow_add]
      omega
    rw [accumulate, or_shl64_group n i b hn, ih _ _ hnext, carriedFrom_cons, Nat.add_assoc]

/-- A framed sequence decodes to its accumulated groups, whatever follows it (41_decoder.md R121). -/
theorem Framed.decodeOne_append {e : List Byte} (he : Framed e) (t : List Byte) :
    decodeOne (e ++ t) = .ok (accumulate 0 0 e, t) := by
  obtain ⟨front, last, rfl, hfront, hlast⟩ := he
  rw [List.append_assoc, List.singleton_append]
  exact Machine.decodeOne_append hfront hlast t

/-- Settles O11: the accumulated groups are their sum, since no two of them share a bit. -/
theorem decodeOfFramedSequence : Obligations.DecodeOfFramedSequence := by
  unfold Obligations.DecodeOfFramedSequence
  intro e t he
  have hsum := accumulate_eq_carriedFrom e 0 0 (Nat.two_pow_pos 0)
  rw [Nat.zero_add] at hsum
  rw [he.decodeOne_append]
  exact congrArg (fun v => Except.ok (v, t)) hsum

/-- At byte index 8 or below all bits of a group fit (41_decoder.md R124). -/
theorem shl64_group_low {g : U64} {i : Nat} (hg : g.toNat < 2 ^ 7) (hi : i ≤ 8) :
    (shl64 g (7 * i)).toNat = g.toNat * 2 ^ (7 * i) := by
  rw [shl64_toNat, Nat.mod_eq_of_lt]
  calc g.toNat * 2 ^ (7 * i) < 2 ^ 7 * 2 ^ (7 * i) := Nat.mul_lt_mul_of_pos_right hg (Nat.two_pow_pos _)
    _ = 2 ^ (7 + 7 * i) := (pow_add ..).symm
    _ ≤ 2 ^ 64 := Nat.pow_le_pow_right (by decide) (by omega)

/-- A command answers with status 0 or 1, so never with the one reserved for Overflow (60_exceptions.md R150). -/
theorem exec_rspStatus {i : Instr} {s t : State} (h : exec i s = .next t) :
    t.block.rspStatus = 0 ∨ t.block.rspStatus = 1 := by
  obtain ⟨-, m, -, rfl⟩ | ⟨-, vs, rest, -, rfl | rfl⟩ := exec_cases h
  · exact .inl rfl
  · exact .inl rfl
  · exact .inr rfl

/-- Settles O10: the shift by its number of bits, the decoded value as the accumulated groups, and the status by the
cases of a command. -/
theorem overlongInputTruncatesSilently : Obligations.OverlongInputTruncatesSilently := by
  unfold Obligations.OverlongInputTruncatesSilently
  refine ⟨fun a n => ⟨shl64_toNat a n, shl64_of_width_le a⟩,
    fun g i hg => ⟨shl64_group_low hg, fun hi => ?_, fun hi => shl64_of_width_le g (by omega)⟩,
    fun e t he => ?_, fun i s t h => ?_⟩
  · rw [hi, shl64_toNat]
    omega
  · rw [he.decodeOne_append, contributed, foldl_zipIdx_eq_accumulate]
  · obtain h | h := exec_rspStatus h <;> simp [h]

/-- Values, and then values from what is left: the two results in one (41_decoder.md R126). -/
theorem decodeFixed_add {data rest : List Byte} {vs : List U64} {m : Nat} (h : decodeFixed data m = .ok (vs, rest))
    (n : Nat) :
    decodeFixed data (m + n) = (decodeFixed rest n).map fun p => (vs ++ p.1, p.2) := by
  induction m generalizing data vs with
  | zero =>
    obtain ⟨rfl, rfl⟩ : [] = vs ∧ data = rest := by simpa [decodeFixed] using h
    rw [Nat.zero_add]
    cases decodeFixed data n <;> rfl
  | succ m ih =>
    obtain ⟨v, us, mid, rfl, hone, hmany⟩ := decodeFixed_succ_eq_ok_iff.1 h
    rw [Nat.add_right_comm, decodeFixed, hone]
    simp only [ih hmany]
    cases decodeFixed rest n <;> rfl

/-- Settles O23: the two cases of decoding from the rest. -/
theorem decodeFixedThreadsTheRest : Obligations.DecodeFixedThreadsTheRest := by
  unfold Obligations.DecodeFixedThreadsTheRest
  intro data m n vs rest h
  refine ⟨fun vs' rest' h' => ?_, fun e he => ?_⟩
  · rw [decodeFixed_add h, h']
    rfl
  · rw [decodeFixed_add h, he]
    rfl

end Sys2Proof.Claims
end

/-! ## The commands: results, frames, and what they depend on -/
section

namespace Sys2Proof.Machine

/-- Reads agree with the buffer before outside the written offsets, in any list. -/
theorem Memory.read_writeSeq_beyond {w : Nat} {m : Memory w} {k j : Nat} {vs : List (BitVec w)}
    (h : k + vs.length ≤ j) : Memory.read (Memory.writeSeq m k vs) j = Memory.read m j := by
  induction vs generalizing m k with
  | nil => rfl
  | cons v vs ih =>
    rw [List.length_cons] at h
    rw [Memory.writeSeq, ih (by omega), Memory.read_write_other (by omega)]

/-- Buffers that agree below `n` hold the same first `n` elements. -/
theorem Memory.readSeq_congr {w : Nat} {m m' : Memory w} {n : Nat} (h : ∀ k, k < n → m'.read k = m.read k) :
    Memory.readSeq m' n = Memory.readSeq m n :=
  List.map_congr_left fun k hk => h k (List.mem_range.1 hk)

theorem Memory.readSeq_take {w : Nat} (m : Memory w) {k n : Nat} (h : k ≤ n) :
    (Memory.readSeq m n).take k = Memory.readSeq m k := by
  rw [Memory.readSeq, ← List.map_take, List.take_range, Nat.min_eq_left h]
  rfl

/-- The values that decoding a number of them gives are those before its first failure, of which there is none. -/
theorem decodedBefore_of_decodeFixed {data rest : List Byte} {vs : List U64} {n : Nat}
    (h : decodeFixed data n = .ok (vs, rest)) : decodedBefore data n = (vs, rest) := by
  obtain ⟨us, mid, hbefore, hfixed, rfl | ⟨-, -, herr⟩⟩ := decodedBefore_cases data n
  · rw [hbefore, Except.ok.inj (hfixed.symm.trans h)]
  · simp [herr] at h

/-- Values that satisfy a command are all it decodes. -/
theorem decodedBefore_of_satisfied {i : Instr} {data rest : List Byte} {vs : List U64}
    (hfixed : decodeFixed data vs.length = .ok (vs, rest)) (hle : vs.length ≤ decodeLimit i)
    (hsat : satisfied i vs.length rest = true) : decodedBefore data (decodeLimit i) = (vs, rest) := by
  obtain hn | ⟨len, count, rfl⟩ : vs.length = decodeLimit i ∨ ∃ len count, i = .decAll len count := by
    cases i <;> simp_all [satisfied]
  · exact hn ▸ decodedBefore_of_decodeFixed hfixed
  · obtain rfl : rest = [] := List.isEmpty_iff.1 hsat
    exact decodedBefore_eq hle hfixed rfl

/-- The number of values decoded is the number asked for (41_decoder.md R126). -/
theorem length_of_decodeFixed {data rest : List Byte} {vs : List U64} {n : Nat}
    (h : decodeFixed data n = .ok (vs, rest)) : vs.length = n := by
  induction n generalizing data vs with
  | zero =>
    obtain ⟨rfl, -⟩ : [] = vs ∧ data = rest := by simpa [decodeFixed] using h
    rfl
  | succ n ih =>
    obtain ⟨v, us, mid, rfl, -, hmany⟩ := decodeFixed_succ_eq_ok_iff.1 h
    rw [List.length_cons, ih hmany]

/-- The only failure of decoding a number of values is UnexpectedEndOfInput (41_decoder.md R126). -/
theorem decodeFixed_error_eq {data : List Byte} {n : Nat} {e : ErrorKind} (h : decodeFixed data n = .error e) :
    e = .unexpectedEndOfInput := by
  obtain ⟨us, mid, -, hfixed, rfl | ⟨-, -, herr⟩⟩ := decodedBefore_cases data n
  · simp [h] at hfixed
  · exact Except.error.inj (h.symm.trans herr)

section
variable (i : Instr) (vs : List U64) (rest : List Byte) (s : State)

/-- A decode command writes its values to VOUT, and no other buffer (20_memory.md R51). -/
@[simp] theorem decodeOutcome_buf :
    (decodeOutcome i vs rest s).buf = { s.buf with vout := Memory.writeSeq s.buf.vout 0 vs } := by
  unfold decodeOutcome
  split <;> rfl

@[simp] theorem decodeOutcome_chan : (decodeOutcome i vs rest s).chan = s.chan := by
  unfold decodeOutcome
  split <;> rfl

@[simp] theorem decodeOutcome_level : (decodeOutcome i vs rest s).level = s.level := by
  unfold decodeOutcome
  split <;> rfl

/-- No register shows anything of the ones before: a decode command writes all sixteen. -/
theorem decodeOutcome_block_congr (s' : State) :
    (decodeOutcome i vs rest s').block = (decodeOutcome i vs rest s).block := by
  unfold decodeOutcome
  split <;> rfl

/-- The registers that are the same on success and on failure (10_state.md R40, R41, log 5). -/
theorem decodeOutcome_registers :
    (decodeOutcome i vs rest s).block.phase = .rsp ∧
      (decodeOutcome i vs rest s).block.cmdOp = i.opcode ∧ (decodeOutcome i vs rest s).block.cmdLen = i.len ∧
      (decodeOutcome i vs rest s).block.cmdCount = i.count ∧
      (decodeOutcome i vs rest s).block.seqK = BitVec.ofNat 32 vs.length ∧
      (decodeOutcome i vs rest s).block.nbytes = 0 ∧ (decodeOutcome i vs rest s).block.rspNbytes = 0 ∧
      (decodeOutcome i vs rest s).block.encActive = false ∧ (decodeOutcome i vs rest s).block.encRem = 0 ∧
      (decodeOutcome i vs rest s).block.decActive = false := by
  unfold decodeOutcome
  split <;> exact ⟨rfl, rfl, rfl, rfl, rfl, rfl, rfl, rfl, rfl, rfl⟩

/-- `SEQ_K` counts the values (41_decoder.md R130). -/
theorem decodeOutcome_seqK (h : vs.length ≤ decodeLimit i) :
    (decodeOutcome i vs rest s).block.seqK.toNat = vs.length := by
  obtain ⟨-, -, -, -, hseq, -⟩ := decodeOutcome_registers i vs rest s
  rw [hseq]
  exact toNat_ofNat_of_lt (h.trans_lt (decodeLimit_lt i))

/-- `POS` counts the bytes of the values, or on failure all bytes of the input (41_decoder.md R133). -/
theorem decodeOutcome_pos :
    (decodeOutcome i vs rest s).block.pos.toNat
      = if satisfied i vs.length rest then i.len.toNat - rest.length else i.len.toNat := by
  cases hsat : satisfied i vs.length rest
  · rw [decodeOutcome_of_not_satisfied hsat]
    rfl
  · rw [decodeOutcome_of_satisfied hsat]
    exact toNat_ofNat_of_lt ((Nat.sub_le ..).trans_lt i.len.isLt)

/-- A decode command reports the number of values it wrote, or on failure none (30_encoding.md R87). -/
theorem decodeOutcome_rspNvalues_le : (decodeOutcome i vs rest s).block.rspNvalues.toNat ≤ vs.length := by
  unfold decodeOutcome
  split
  · exact (BitVec.toNat_ofNat ..).trans_le (Nat.mod_le ..)
  · exact Nat.zero_le _

end

/-- Of what is left, a command looks at the number of bytes alone. -/
theorem satisfied_congr {i : Instr} {n : Nat} {rest rest' : List Byte} (h : rest'.length = rest.length) :
    satisfied i n rest' = satisfied i n rest := by
  cases i with
  | decAll => cases rest <;> cases rest' <;> simp_all [satisfied]
  | _ => rfl

section
variable {i : Instr} {s t : State}

/-- A decode command whose input holds what it asks for (41_decoder.md R125 to R127). -/
theorem exec_decode_of_satisfied {vs : List U64} {rest : List Byte} (hi : 2 ≤ i.opcode.toNat)
    (hfixed : decodeFixed (s.buf.data i.len) vs.length = .ok (vs, rest)) (hle : vs.length ≤ decodeLimit i)
    (hsat : satisfied i vs.length rest = true) :
    exec i s
      = .next (decodeSucceeds vs (i.len.toNat - rest.length) (beginDecode i.opcode i.len i.count s)) := by
  rw [exec_decode hi (decodedBefore_of_satisfied hfixed hle hsat), decodeOutcome_of_satisfied hsat]

/-- A command ends with its response and with its fields latched (10_state.md R40, R41). -/
theorem exec_latches (h : exec i s = .next t) :
    t.block.phase = .rsp ∧ t.block.cmdOp = i.opcode ∧ t.block.cmdLen = i.len ∧ t.block.cmdCount = i.count := by
  obtain ⟨-, m, -, rfl⟩ | ⟨-, vs, rest, -, rfl | rfl⟩ := exec_cases h <;> exact ⟨rfl, rfl, rfl, rfl⟩

/-- A decode command with another `COUNT` that asks for the same does the same but for its latch (30_encoding.md
R78). -/
theorem exec_decode_other_count {j : Instr} (hi : 2 ≤ i.opcode.toNat) (hop : j.opcode = i.opcode)
    (hlen : j.len = i.len) (hlimit : decodeLimit j = decodeLimit i) (hsat : satisfied j = satisfied i)
    (h : exec i s = .next t) :
    exec j s = .next { t with block := { t.block with cmdCount := j.count } } := by
  obtain ⟨vs, rest, hbefore, -, -, rfl, -⟩ := exec_decode_cases hi h
  rw [exec_decode (hop ▸ hi) (hlen ▸ hlimit ▸ hbefore), decodeOutcome, decodeOutcome, hsat, hop, hlen]
  split <;> rfl

/-- A command depends on its buffers alone: the registers before it do not show, and the channels and the level pass
through it (10_state.md, section 5). -/
theorem exec_congr (h : exec i s = .next t) {s' : State} (hbuf : s'.buf = s.buf) :
    exec i s' = .next { t with chan := s'.chan, level := s'.level } := by
  obtain ⟨block', buf', chan', level'⟩ := s'
  obtain rfl : buf' = s.buf := hbuf
  obtain hi | hi := Nat.lt_or_ge 1 i.opcode.toNat
  · obtain ⟨vs, rest, hbefore, -, -, rfl, -⟩ := exec_decode_cases hi h
    rw [exec_decode (s := ⟨block', s.buf, chan', level'⟩) hi hbefore, decodeOutcome, decodeOutcome]
    split <;> rfl
  · cases i with
    | encOne | encMany =>
      obtain rfl := Host.Outcome.next.inj h
      rfl
    | decOne => simp [Instr.opcode] at hi
    | decFixed => simp [Instr.opcode] at hi
    | decAll => simp [Instr.opcode] at hi

end

end Sys2Proof.Machine

namespace Sys2Proof.Claims

open Sys2Proof.Machine

/-- Settles O19: ENC_MANY is the encode command of `COUNT` values, of 1 to 10 bytes each. -/
theorem encManyEncodesBatch : Obligations.EncManyEncodesBatch := by
  unfold Obligations.EncManyEncodesBatch
  intro len count s h
  have hholds := holdsFrom_encodeCommand 1 len count count s h
  have hresp := responds_encodeCommand 1 len count count s
  have hlength : (s.buf.values count.toNat).length = count.toNat := Memory.readSeq_length ..
  have ⟨_, _, _, _, hbytes⟩ := hresp
  refine ⟨_, rfl, ?_, ?_, ?_, ?_⟩
  · rintro bytes rfl
    exact ⟨hholds, hresp⟩
  · have := length_le_encodeMany_length (s.buf.values count.toNat)
    omega
  · have := encodeMany_length_le (s.buf.values count.toNat)
    omega
  · rintro rfl
    exact ⟨⟨fun _ => rfl, fun _ => rfl, fun _ => rfl, fun _ => rfl⟩, rfl, rfl, rfl, rfl, rfl⟩

/-- Settles O20: both are the encode command of one value. -/
theorem encManyOfOneIsEncOne : Obligations.EncManyOfOneIsEncOne := by
  unfold Obligations.EncManyOfOneIsEncOne
  intro len len' count' s t t' ht ht'
  obtain rfl := Host.Outcome.next.inj ht
  obtain rfl := Host.Outcome.next.inj ht'
  exact ⟨rfl, rfl⟩

/-- DEC_FIXED on input that holds its values (41_decoder.md R126). -/
theorem exec_decFixed_success {s : State} {len count : BitVec 32} (h : s.buf.wf = true) {vs : List U64}
    {rest : List Byte} (hok : decodeFixed (s.buf.data len) count.toNat = .ok (vs, rest)) :
    ∃ t, exec (.decFixed len count) s = .next t ∧ HoldsFrom s.buf.vout t.buf.vout vs ∧
      vs.length = count.toNat ∧ Responds t 0 (len.toNat - rest.length) count.toNat 0 := by
  have hlength := length_of_decodeFixed hok
  have hlt : vs.length < 2 ^ 32 := hlength ▸ count.isLt
  refine ⟨_, exec_decFixed_of_ok hok, holdsFrom_decodeSucceeds h hlt, hlength, ?_⟩
  rw [← hlength]
  exact responds_decodeSucceeds ((Nat.sub_le ..).trans_lt len.isLt) hlt

/-- DEC_FIXED on input that ends before its last value (41_decoder.md R126, R128). -/
theorem exec_decFixed_failure {s : State} {len count : BitVec 32} (h : s.buf.wf = true)
    (herr : decodeFixed (s.buf.data len) count.toNat = .error .unexpectedEndOfInput) :
    ∃ t vs cut, exec (.decFixed len count) s = .next t ∧ vs.length < count.toNat ∧
      decodeFixed (s.buf.data len) vs.length = .ok (vs, cut) ∧ decodeOne cut = .error .unexpectedEndOfInput ∧
      HoldsFrom s.buf.vout t.buf.vout vs ∧ Responds t 1 0 0 0 := by
  obtain ⟨vs, cut, hbefore, hfixed, hn | ⟨hlt, hcut, -⟩⟩ := decodedBefore_cases (s.buf.data len) count.toNat
  · simp [hn, herr] at hfixed
  · have hexec := exec_decFixed_of_error herr
    rw [hbefore] at hexec
    exact ⟨_, vs, cut, hexec, hlt, hfixed, hcut, holdsFrom_decodeFails h (hlt.trans count.isLt),
      responds_decodeFails⟩

/-- Settles O22: by what decoding `COUNT` values from the command's input gives. -/
theorem decFixedDecodesCountValues : Obligations.DecFixedDecodesCountValues := by
  unfold Obligations.DecFixedDecodesCountValues
  refine ⟨fun w => (lowByte_eq_opcode_iff_decode (.decFixed _ _) rfl rfl).1, fun len count s h =>
    ⟨fun vs rest hok => ?_, fun herr => ?_, ?_, fun hill => ?_⟩⟩
  · exact exec_decFixed_success h hok
  · exact exec_decFixed_failure h herr
  · rintro rfl
    rfl
  · simpa using decodeFixed_error_eq hill

/-- Settles O26: the registers and buffers of an encode command, and OUT beyond the written bytes. -/
theorem encodeCommandFrame : Obligations.EncodeCommandFrame := by
  unfold Obligations.EncodeCommandFrame
  rintro len count s t i m (⟨rfl, rfl⟩ | ⟨rfl, rfl⟩) h
  all_goals
    obtain rfl := Host.Outcome.next.inj h
    refine ⟨fun k hk => ?_, rfl, rfl, rfl, rfl, rfl, rfl, rfl, rfl, rfl, rfl, rfl, rfl, rfl, rfl, rfl, rfl⟩
    exact Memory.read_writeSeq_beyond (by simpa using hk)

/-- Settles O27: the registers and buffers of a decode command, and VOUT beyond the written values. -/
theorem decodeCommandFrame : Obligations.DecodeCommandFrame := by
  unfold Obligations.DecodeCommandFrame
  intro len count s t i n hin h
  obtain ⟨hi, rfl, rfl, rfl⟩ : 2 ≤ i.opcode.toNat ∧ i.len = len ∧ i.count = count ∧ decodeLimit i = n := by
    obtain ⟨rfl, rfl⟩ | ⟨rfl, rfl⟩ | ⟨rfl, rfl⟩ := hin <;> simp [Instr.opcode, Instr.len, Instr.count, decodeLimit]
  obtain ⟨vs, rest, hbefore, hfixed, hle, rfl, -⟩ := exec_decode_cases hi h
  obtain ⟨-, hop, hlen, hcount, -, hnbytes, -, henc, hrem, hdec⟩ := decodeOutcome_registers i vs rest s
  have hk := decodeOutcome_seqK i vs rest s hle
  have hbytes := decodeFixed_length_le hfixed
  rw [Buffers.data_length] at hbytes
  have hpos : vs.length ≤ (decodeOutcome i vs rest s).block.pos.toNat ∧
      (decodeOutcome i vs rest s).block.pos.toNat ≤ i.len.toNat := by
    rw [decodeOutcome_pos]
    split <;> omega
  rw [hbefore, hk, decodeOutcome_buf]
  exact ⟨fun k hk => Memory.read_writeSeq_beyond (by simpa using hk), rfl, rfl, rfl, decodeOutcome_chan ..,
    decodeOutcome_level .., hop, hlen, hcount, rfl, hpos.2, hpos.1, hnbytes, henc, hrem, hdec⟩

/-- Settles O28: the latched fields, and each command's meaning with another unused field. -/
theorem unusedFieldsChangeNothing : Obligations.UnusedFieldsChangeNothing := by
  unfold Obligations.UnusedFieldsChangeNothing
  refine ⟨fun i s t h => ?_, fun l c l' c' s t h => ?_, fun l c l' s t h => ?_, fun l c c' s t h => ?_,
    fun l c c' s t h => ?_⟩
  · obtain ⟨-, -, hlen, hcount⟩ := exec_latches h
    rw [hlen, hcount]
    exact ⟨rfl, rfl⟩
  · obtain rfl := Host.Outcome.next.inj h
    rfl
  · obtain rfl := Host.Outcome.next.inj h
    rfl
  · exact exec_decode_other_count (i := .decOne l c) (j := .decOne l c') (by simp [Instr.opcode]) rfl rfl rfl rfl h
  · exact exec_decode_other_count (i := .decAll l c) (j := .decAll l c') (by simp [Instr.opcode]) rfl rfl rfl rfl h

/-- Buffers that hold the same elements from offset 0 on agree there. -/
theorem HoldsFrom.read_eq {w : Nat} {m n m' n' : Memory w} {vs : List (BitVec w)} (h : HoldsFrom m m' vs)
    (h' : HoldsFrom n n' vs) {k : Nat} (hk : k < vs.length) : n'.read k = m'.read k := by
  rw [h k, h' k, List.getElem?_eq_getElem hk, Option.getD_some, Option.getD_some]

section
variable {i : Instr} {s s' t t' : State} (h : s.buf.wf = true) (h' : s'.buf.wf = true)
include h h'

/-- The result of an encode command depends on the values it encodes alone. -/
theorem encode_depends_on_values {op : BitVec 3} {len count m : BitVec 32}
    (hvin : ∀ k, k < m.toNat → s'.buf.vin.read k = s.buf.vin.read k)
    (ht : t = encodeCommand op len count m s) (ht' : t' = encodeCommand op len count m s') :
    t'.block = t.block ∧ t'.outResult = t.outResult ∧
      ∀ k, k < t.block.nbytes.toNat → t'.buf.out.read k = t.buf.out.read k := by
  subst ht ht'
  have hvalues : s'.buf.values m.toNat = s.buf.values m.toNat := Memory.readSeq_congr hvin
  have hblock : (encodeCommand op len count m s').block = (encodeCommand op len count m s).block := by
    rw [encodeCommand_block, encodeCommand_block, hvalues]
    rfl
  obtain ⟨-, -, -, -, hbytes⟩ := responds_encodeCommand op len count m s
  have hholds := holdsFrom_encodeCommand op len count m s h
  have hholds' := holdsFrom_encodeCommand op len count m s' h'
  rw [hvalues] at hholds'
  have hout : ∀ k, k < (encodeCommand op len count m s).block.rspNbytes.toNat →
      (encodeCommand op len count m s').buf.out.read k = (encodeCommand op len count m s).buf.out.read k :=
    fun k hk => hholds.read_eq hholds' (hbytes ▸ hk)
  refine ⟨hblock, ?_, hout⟩
  rw [State.outResult, State.outResult, hblock, Memory.readSeq_congr hout]

/-- The result of a decode command depends on the values it decodes, and on what they leave, alone. -/
theorem decodeOutcome_depends_on_values {vs : List U64} {rest : List Byte} (hvs : vs.length ≤ decodeLimit i)
    (ht : t = decodeOutcome i vs rest s) (ht' : t' = decodeOutcome i vs rest s') :
    t'.block = t.block ∧ t'.outResult = t.outResult ∧ t.block.nbytes = 0 ∧ t'.voutResult = t.voutResult ∧
      ∀ k, k < t.block.seqK.toNat → t'.buf.vout.read k = t.buf.vout.read k := by
  obtain ⟨-, -, -, -, -, hnbytes, hrsp, -⟩ := decodeOutcome_registers i vs rest s
  have hblock : t'.block = t.block := by rw [ht, ht', decodeOutcome_block_congr i vs rest s s']
  rw [← ht] at hnbytes hrsp
  obtain ⟨-, -, -, hvout⟩ := s.buf.wf_iff.1 h
  obtain ⟨-, -, -, hvout'⟩ := s'.buf.wf_iff.1 h'
  have hlt := hvs.trans_lt (decodeLimit_lt i)
  have hread : ∀ k, k < vs.length → t'.buf.vout.read k = t.buf.vout.read k := by
    intro k hk
    rw [ht, ht', decodeOutcome_buf, decodeOutcome_buf]
    exact (holdsFrom_writeSeq hvout hlt.le).read_eq (holdsFrom_writeSeq hvout' hlt.le) hk
  have hk : t.block.seqK.toNat = vs.length := ht ▸ decodeOutcome_seqK i vs rest s hvs
  have hn : t.block.rspNvalues.toNat ≤ vs.length := ht ▸ decodeOutcome_rspNvalues_le i vs rest s
  refine ⟨hblock, ?_, hnbytes, ?_, fun k hlt => hread k (hk ▸ hlt)⟩
  · rw [State.outResult, State.outResult, hblock, hrsp]
    rfl
  · rw [State.voutResult, State.voutResult, hblock, Memory.readSeq_congr fun k hlt => hread k (hlt.trans_le hn)]

end

/-- Settles O29: an encode command by the values it encodes, a decode command by those it decodes. -/
theorem resultDependsOnlyOnInput : Obligations.ResultDependsOnlyOnInput := by
  unfold Obligations.ResultDependsOnlyOnInput
  intro i s s' t t' h h' hvin hinp ht ht'
  obtain hi | hi := Nat.lt_or_ge 1 i.opcode.toNat
  · have hlen : inputLength i = i.len.toNat := by cases i <;> simp_all [Instr.opcode, inputLength, Instr.len]
    have hdata : s'.buf.data i.len = s.buf.data i.len := Memory.readSeq_congr (hlen ▸ hinp)
    obtain ⟨vs, rest, hbefore, -, hle, ht, -⟩ := exec_decode_cases hi ht
    have ht' := Host.Outcome.next.inj (ht'.symm.trans (exec_decode (s := s') hi (hdata ▸ hbefore)))
    obtain ⟨hblock, hout, hnbytes, hvout⟩ :=
      decodeOutcome_depends_on_values h h' hle ht ht'
    exact ⟨hblock, hout, fun k hk => by simp [hnbytes] at hk, fun _ => hvout⟩
  · obtain ⟨m, hm, hexec⟩ := exec_encode hi s
    obtain ⟨m', hm', hexec'⟩ := exec_encode hi s'
    obtain rfl : m' = m := BitVec.eq_of_toNat_eq (hm'.trans hm.symm)
    have ht := Host.Outcome.next.inj (ht.symm.trans hexec)
    have ht' := Host.Outcome.next.inj (ht'.symm.trans hexec')
    obtain ⟨hblock, hout, hread⟩ := encode_depends_on_values h h' (hm ▸ hvin) ht ht'
    exact ⟨hblock, hout, hread, fun hdec => by omega⟩

/-- The three successes of a decode command are one: values that satisfy it. -/
theorem satisfied_of_success {s : State} {len count : BitVec 32} {i : Instr} {vs : List U64} {rest : List Byte}
    (h : (i = .decOne len count ∧ decodeFixed (firstOf s.buf.inp len.toNat) 1 = .ok (vs, rest)) ∨
      (i = .decFixed len count ∧ decodeFixed (firstOf s.buf.inp len.toNat) count.toNat = .ok (vs, rest)) ∨
      (i = .decAll len count ∧ rest = [] ∧
        decodeFixed (firstOf s.buf.inp len.toNat) vs.length = .ok (vs, rest))) :
    2 ≤ i.opcode.toNat ∧ i.len = len ∧ decodeFixed (s.buf.data i.len) vs.length = .ok (vs, rest) ∧
      vs.length ≤ decodeLimit i ∧ satisfied i vs.length rest = true := by
  obtain ⟨rfl, hfixed⟩ | ⟨rfl, hfixed⟩ | ⟨rfl, rfl, hfixed⟩ := h
  · have hn := length_of_decodeFixed hfixed
    exact ⟨by simp [Instr.opcode], rfl, hn ▸ hfixed, hn.le, beq_iff_eq.2 hn⟩
  · have hn := length_of_decodeFixed hfixed
    exact ⟨by simp [Instr.opcode], rfl, hn ▸ hfixed, hn.le, beq_iff_eq.2 hn⟩
  · have hle : vs.length ≤ (s.buf.data len).length := le_of_add_le_left (decodeFixed_length_le hfixed)
    rw [Buffers.data_length] at hle
    exact ⟨by simp [Instr.opcode], rfl, hfixed, hle, rfl⟩

/-- Settles O25: the bytes taken are the input before the rest, and decoding takes the same off any input that begins
with them. -/
theorem restIsTheUnreadInput : Obligations.RestIsTheUnreadInput := by
  unfold Obligations.RestIsTheUnreadInput
  intro len count s t i vs rest hin h
  obtain ⟨hi, rfl, hfixed, hle, hsat⟩ := satisfied_of_success hin
  obtain ⟨taken, hdata, hprefix⟩ := decodeFixed_prefix hfixed
  have hlen : taken.length + rest.length = i.len.toNat := by
    rw [← List.length_append, ← hdata, Buffers.data_length]
  have hsub : i.len.toNat - rest.length = taken.length := by omega
  obtain rfl := Host.Outcome.next.inj ((exec_decode_of_satisfied hi hfixed hle hsat).symm.trans h)
  have hc : (decodeSucceeds vs (i.len.toNat - rest.length)
      (beginDecode i.opcode i.len i.count s)).block.rspConsumed.toNat = taken.length := by
    rw [hsub]
    exact toNat_ofNat_of_lt (by omega)
  have htaken (s' : State) : (s'.buf.data i.len).take taken.length = Memory.readSeq s'.buf.inp taken.length :=
    Memory.readSeq_take _ (by omega)
  have hfirst : Memory.readSeq s.buf.inp taken.length = taken := by
    rw [← htaken, hdata, List.take_left]
  rw [hc]
  refine ⟨?_, hlen, ?_, fun s' t' hvout hinp h' => ?_⟩
  · rw [State.rest, hc]
    exact (congrArg _ hdata).trans (List.drop_left ..)
  · exact hdata.trans (congrArg (· ++ rest) hfirst.symm)
  · have hs' : taken = (s'.buf.data i.len).take taken.length := by
      rw [htaken, Memory.readSeq_congr hinp, hfirst]
    obtain ⟨rest', hdata'⟩ := List.prefix_iff_eq_take.2 hs'
    have hlen' : rest'.length = rest.length := by
      have := s'.buf.data_length i.len
      rw [← hdata', List.length_append] at this
      omega
    have hexec := exec_decode_of_satisfied hi (hdata' ▸ hprefix rest') hle (satisfied_congr hlen' ▸ hsat)
    obtain rfl := Host.Outcome.next.inj (hexec.symm.trans h')
    rw [hlen']
    exact ⟨rfl, congrArg (Memory.writeSeq · 0 vs) hvout⟩

end Sys2Proof.Claims
end

/-! ## Steps: commands, waiting, the hand-off, and what a step shows on its ports -/
section

namespace Sys2Proof.Machine

section
variable {s : State}

/-- A block that waits steps to itself (10_state.md R39). -/
theorem step_of_wait (hr : s.chan.rst = false)
    (h : (s.block.phase = .idle ∧ s.chan.offered = []) ∨ (s.block.phase = .rsp ∧ s.chan.rspReady = false)) :
    step s = .next s := by
  obtain ⟨hp, ho⟩ | ⟨hp, hy⟩ := h
  · simp [step, activity, hr, hp, ho]
  · simp [step, activity, hr, hp, hy]

/-- A response that is taken is handed off (10_state.md R42). -/
theorem step_of_handOff (hr : s.chan.rst = false) (hp : s.block.phase = .rsp) (hy : s.chan.rspReady = true) :
    step s = .next s.handOff := by
  simp [step, activity, hr, hp, hy]

/-- A waiting response accesses no buffer. -/
theorem State.ports_no_access_of_rsp (hp : s.block.phase = .rsp) :
    s.ports.outWr = none ∧ s.ports.voutWr = none := by
  simp [State.ports, hp]

/-- The encoder writes no value. -/
theorem State.ports_voutWr_of_enc (hp : s.block.phase = .enc) : s.ports.voutWr = none := by
  simp [State.ports, hp]

/-- The decoder writes no byte. -/
theorem State.ports_outWr_of_dec (hp : s.block.phase = .dec) : s.ports.outWr = none := by
  simp [State.ports, hp]

/-- A decoder that consumes no byte writes no value (41_decoder.md R130). -/
theorem State.ports_voutWr_of_end (h : s.block.decodeDone = true ∨ s.block.pos = s.block.cmdLen) :
    s.ports.voutWr = none := by
  by_contra hwr
  obtain ⟨hrd, -⟩ := s.ports_voutWr_iff.1 hwr
  obtain ⟨-, -, hd, hpos⟩ := s.ports_inRd_iff.1 hrd
  obtain h | h := h
  · simp [hd] at h
  · exact hpos h

end

/-- A read after a write (20_memory.md R52). -/
theorem Memory.read_write {w bound : Nat} {m : Memory w} (h : Memory.wf bound m = true) (k j : Nat)
    (v : BitVec w) : Memory.read (Memory.write m k v) j = if j = k then v else Memory.read m j := by
  split
  · subst_vars
    exact Memory.read_write_same h
  · exact Memory.read_write_other ‹_›

/-- Everything a micro-step can do to the buffers: nothing, with no write on a port, or one byte or one value, with
that write on its port (20_memory.md, section 1). -/
theorem step_buf_cases {s t : State} (hl : s.level = .microStep) (h : step s = .next t) :
    (t.buf = s.buf ∧ s.ports.outWr = none ∧ s.ports.voutWr = none) ∨
    (t.block.phase = s.block.phase ∧ s.ports.voutWr = none ∧ ∃ off b, s.ports.outWr = some (off, b) ∧
      t.buf = { s.buf with out := Memory.write s.buf.out off.toNat b }) ∨
    (t.block.phase = s.block.phase ∧ s.ports.outWr = none ∧ ∃ idx v, s.ports.voutWr = some (idx, v) ∧
      t.buf = { s.buf with vout := Memory.write s.buf.vout idx.toNat v }) := by
  obtain ⟨hr, rfl⟩ | ⟨-, hp, -, rfl⟩ | ⟨w, rest, i, -, -, -, -, hl', -⟩ | ⟨w, rest, i, -, hp, -, -, -, rfl⟩ |
    ⟨w, rest, e, -, hp, -, -, rfl⟩ | ⟨hr, hp, rfl⟩ | ⟨hr, hp, rfl⟩ | ⟨-, hp, -, rfl⟩ | ⟨-, hp, -, rfl⟩ := step_cases h
  · exact .inl ⟨rfl, (State.ports_no_access_of_reset hr).2.2⟩
  · exact .inl ⟨rfl, (State.ports_no_access_of_idle _ hp).2.2⟩
  · simp [hl] at hl'
  · exact .inl ⟨rfl, (State.ports_no_access_of_idle _ hp).2.2⟩
  · exact .inl ⟨rfl, (State.ports_no_access_of_idle _ hp).2.2⟩
  · have hvout := State.ports_voutWr_of_enc hp
    obtain ⟨ha, -, ht⟩ | ⟨ha, -, ht⟩ | ⟨ha, ht⟩ := encStep_cases s <;> rw [ht]
    · exact .inl ⟨rfl, State.ports_outWr_of_inactive ha, hvout⟩
    · exact .inl ⟨rfl, State.ports_outWr_of_inactive ha, hvout⟩
    · exact .inr (.inl ⟨rfl, hvout, _, _, State.ports_outWr_of_active hr hp ha, rfl⟩)
  · have hout := State.ports_outWr_of_dec hp
    obtain ⟨hd, ht⟩ | ⟨-, hpos, ht⟩ | ⟨-, -, hc, ht⟩ | ⟨hd, hpos, hc, ht⟩ := decStep_cases s <;> rw [ht]
    · exact .inl ⟨rfl, hout, State.ports_voutWr_of_end (.inl hd)⟩
    · exact .inl ⟨rfl, hout, State.ports_voutWr_of_end (.inr hpos)⟩
    · exact .inl ⟨rfl, hout, State.ports_voutWr_of_more hc⟩
    · exact .inr (.inr ⟨rfl, hout, _, _, State.ports_voutWr_of_last hr hp hd hpos hc, rfl⟩)
  · exact .inl ⟨rfl, State.ports_no_access_of_rsp hp⟩
  · exact .inl ⟨rfl, State.ports_no_access_of_rsp hp⟩

/-- Settles O43: the three cases of a micro-step, read through the ports. -/
theorem buffersChangeOnlyThroughPorts : Obligations.BuffersChangeOnlyThroughPorts := by
  unfold Obligations.BuffersChangeOnlyThroughPorts
  intro s t hl h
  obtain ⟨hbuf, hout, hvout⟩ | ⟨-, hvout, off, b, hout, hbuf⟩ | ⟨-, hout, idx, v, hvout, hbuf⟩ :=
    step_buf_cases hl h
  · rw [hbuf, hout, hvout]
    exact ⟨rfl, rfl, rfl, rfl, fun _ _ => rfl, fun _ _ => rfl⟩
  · rw [hbuf, hout, hvout]
    exact ⟨rfl, rfl, rfl, rfl, fun hwf k => Memory.read_write ((s.buf.wf_iff.1 hwf).2.2.1) .., fun _ _ => rfl⟩
  · rw [hbuf, hout, hvout]
    exact ⟨rfl, rfl, rfl, rfl, fun _ _ => rfl, fun hwf k => Memory.read_write ((s.buf.wf_iff.1 hwf).2.2.2) ..⟩

/-- Settles O44: a micro-step that writes a buffer stays in its phase. -/
theorem writesPrecedeTheResponse : Obligations.WritesPrecedeTheResponse := by
  unfold Obligations.WritesPrecedeTheResponse
  intro s t hl h hs ht
  obtain hquiet | ⟨hp, -⟩ | ⟨hp, -⟩ := step_buf_cases hl h
  · exact hquiet
  · exact absurd (hp.symm.trans ht) hs
  · exact absurd (hp.symm.trans ht) hs

/-- Settles O35: each of the two waiting cases steps to itself. -/
theorem waitingChangesNothing : Obligations.WaitingChangesNothing := by
  unfold Obligations.WaitingChangesNothing
  intro s hr h n
  have hwait := h.imp_left fun ⟨hp, hv⟩ => (⟨hp, by simpa [State.cmdValid] using hv⟩ : _ ∧ s.chan.offered = [])
  exact run_of_step_self (step_of_wait hr hwait) n

/-- Settles O45: a response that is not taken waits, and waiting changes nothing. -/
theorem responseIsHeld : Obligations.ResponseIsHeld := by
  unfold Obligations.ResponseIsHeld
  intro s t n hvalid hy h
  obtain ⟨hr, hp⟩ := s.ports_rspValid_iff.1 hvalid
  obtain rfl := Host.Outcome.next.inj ((waitingChangesNothing s hr (.inr ⟨hp, hy⟩) n).symm.trans h)
  exact ⟨hvalid, rfl⟩

/-- Settles O37: the reset values, and the ports of an idle block out of reset. -/
theorem resetStateIsReady : Obligations.ResetStateIsReady := by
  unfold Obligations.ResetStateIsReady
  refine ⟨rfl, rfl, rfl, rfl, rfl, rfl, rfl, rfl, rfl, rfl, rfl, rfl, rfl, rfl, rfl, rfl, rfl, fun s hb hr => ?_⟩
  have hp : s.block.phase = .idle := congrArg Block.phase hb
  refine ⟨s.ports_cmdReady_iff.2 ⟨hr, hp⟩, ?_⟩
  simpa [hp] using s.ports_rspValid_iff.not

/-- Settles O54: the stepped machine takes its own next state, at its own position. -/
theorem instancesShareNoState : Obligations.InstancesShareNoState := by
  unfold Obligations.InstancesShareNoState
  intro sys k hk
  obtain ⟨t, ht⟩ := step_next sys[k]
  have hget : sys[k]? = some sys[k] := List.getElem?_eq_getElem hk
  refine ⟨sys.set k t, sys[k], t, ?_, hget, ht, List.getElem?_set_self hk, List.length_set, fun j hj =>
    List.getElem?_set_ne hj.symm⟩
  simp [System.stepAt, hget, ht]

/-- The response registers of a step out of reset change only where it ends a command (10_state.md R41). -/
theorem step_keeps_response {s t : State} (hr : s.chan.rst = false) (h : step s = .next t)
    (hend : t.block.phase ≠ .rsp ∨ s.block.phase = .rsp) :
    t.block.rspStatus = s.block.rspStatus ∧ t.block.rspConsumed = s.block.rspConsumed ∧
      t.block.rspNvalues = s.block.rspNvalues ∧ t.block.rspNbytes = s.block.rspNbytes := by
  obtain ⟨hr', -⟩ | ⟨-, -, -, rfl⟩ | ⟨w, rest, i, -, hp, -, -, -, hexec⟩ | ⟨w, rest, i, -, -, -, -, -, rfl⟩ |
    ⟨w, rest, e, -, hp, -, -, rfl⟩ | ⟨-, hp, rfl⟩ | ⟨-, hp, rfl⟩ | ⟨-, -, -, rfl⟩ | ⟨-, -, -, rfl⟩ := step_cases h
  · simp [hr] at hr'
  · exact ⟨rfl, rfl, rfl, rfl⟩
  · simp [exec_latches hexec, hp] at hend
  · exact ⟨rfl, rfl, rfl, rfl⟩
  · simp [hp] at hend
  · obtain ⟨-, -, ht⟩ | ⟨-, -, ht⟩ | ⟨-, ht⟩ := encStep_cases s <;> rw [ht] at hend ⊢
    · simp [hp] at hend
    · exact ⟨rfl, rfl, rfl, rfl⟩
    · exact ⟨rfl, rfl, rfl, rfl⟩
  · obtain ⟨-, ht⟩ | ⟨-, -, ht⟩ | ⟨-, -, -, ht⟩ | ⟨-, -, -, ht⟩ := decStep_cases s <;> rw [ht] at hend ⊢
    · simp [hp] at hend
    · simp [hp] at hend
    · exact ⟨rfl, rfl, rfl, rfl⟩
    · exact ⟨rfl, rfl, rfl, rfl⟩
  · exact ⟨rfl, rfl, rfl, rfl⟩
  · exact ⟨rfl, rfl, rfl, rfl⟩

/-- Settles O34: the hand-off step, and every step out of reset by its case. -/
theorem handOffKeepsResponseRegisters : Obligations.HandOffKeepsResponseRegisters := by
  unfold Obligations.HandOffKeepsResponseRegisters
  refine ⟨fun s hr hp hy => ?_, fun s t hr h => step_keeps_response hr h⟩
  refine ⟨s.handOff, step_of_handOff hr hp hy, rfl, rfl, rfl, rfl, ?_⟩
  simpa using s.handOff.ports_rspValid_iff.not

end Sys2Proof.Machine

namespace Sys2Proof.Claims

open Sys2Proof.Machine

/-- At the transaction level a legal word runs whole (00_scope.md R15, log 4). -/
theorem Offers.step_transaction {s : State} {w : CmdWord} {rest : List CmdWord} (h : Offers s w rest) {i : Instr}
    (hd : decode w = .ok i) (hl : s.level = .transaction) : step s = exec i s.popCommand := by
  simp [step, h.activity_eq, transferOf, hd, hl]

/-- Settles O30: the step of an offered legal word, and the channel it leaves. -/
theorem stepRunsDecodedCommand : Obligations.StepRunsDecodedCommand := by
  unfold Obligations.StepRunsDecodedCommand
  intro s w rest i h hd hl
  refine ⟨h.step_transaction hd hl, ?_⟩
  rw [← h.popCommand_chan]
  rfl

/-- A word of the opcode table that decodes stands for the command word it is placed as. -/
theorem decode_of_decodeTableWord {nbits w : Nat} {i : Instr} (h : decodeTableWord nbits w = some i) :
    decode (BitVec.ofNat 72 (w % 2 ^ nbits)) = .ok i := by
  rw [decodeTableWord] at h
  split at h
  · cases hd : decode (BitVec.ofNat 72 (w % 2 ^ nbits)) <;> simp_all [Except.toOption]
  · simp at h

/-- Settles O31: the placed word is offered to an idle block, at the transaction level. -/
theorem placedWordRunsNext : Obligations.PlacedWordRunsNext := by
  unfold Obligations.PlacedWordRunsNext
  intro s nbits w i _ h
  have hoffer : Offers (s.withFetchWord nbits w) (BitVec.ofNat 72 (w % 2 ^ nbits)) s.chan.offered :=
    ⟨rfl, rfl, rfl⟩
  exact ⟨hoffer.step_transaction (decode_of_decodeTableWord h) rfl, rfl, rfl⟩

/-- Settles O38: the hand-off leaves the buffers and the offered words, and the next command depends on the buffers
alone. -/
theorem errorIsNotSticky : Obligations.ErrorIsNotSticky := by
  unfold Obligations.ErrorIsNotSticky
  intro s s' w rest i hr hp hy hl ho hd hchan hbuf hlevel hp'
  have hoffer : Offers s.handOff w rest := ⟨hr, rfl, ho⟩
  obtain ⟨hr', hy', ho'⟩ : s'.chan.rst = false ∧ s'.chan.rspReady = true ∧ s'.chan.offered = w :: rest := by
    rw [hchan]
    exact ⟨hr, hy, ho⟩
  have hoffer' : Offers s'.handOff w rest := ⟨hr', rfl, ho'⟩
  obtain ⟨u, hu⟩ := exec_next i s.handOff.popCommand
  obtain ⟨hphase, -⟩ := exec_latches hu
  have hu' := exec_congr hu (s' := s'.handOff.popCommand) hbuf
  exact ⟨s.handOff, s'.handOff, u, _, step_of_handOff hr hp hy, rfl, s.handOff.ports_cmdReady_iff.2 ⟨hr, rfl⟩,
    (hoffer.step_transaction hd hl).trans hu, step_of_handOff hr' hp' hy',
    (hoffer'.step_transaction hd (hlevel.trans hl)).trans hu', hphase, rfl, rfl⟩

/-- Settles O46: the steps that write the status register are reset and those that end a command. -/
theorem statusCodesAreWrittenByTheirCommands : Obligations.StatusCodesAreWrittenByTheirCommands := by
  unfold Obligations.StatusCodesAreWrittenByTheirCommands
  intro s t h hne
  obtain ⟨-, rfl⟩ | ⟨-, -, -, rfl⟩ | ⟨w, rest, i, hr, hp, ho, hd, -, hexec⟩ | ⟨w, rest, i, -, -, -, -, -, rfl⟩ |
    ⟨w, rest, e, hr, hp, ho, hd, rfl⟩ | ⟨-, -, rfl⟩ | ⟨-, hp, rfl⟩ | ⟨-, -, -, rfl⟩ | ⟨-, -, -, rfl⟩ := step_cases h
  · exact .inl rfl
  · exact absurd rfl hne
  · obtain ⟨-, m, -, rfl⟩ | ⟨hi, vs, rest', -, rfl | rfl⟩ := exec_cases hexec
    · exact .inl rfl
    · exact .inl rfl
    · exact .inr (.inl ⟨rfl, rfl, .inr ⟨w, rest, i, ⟨hr, hp, ho⟩, hd, hi⟩⟩)
  · exact absurd rfl hne
  · exact .inr (.inr ⟨rfl, rfl, w, rest, e, ⟨hr, hp, ho⟩, hd⟩)
  · obtain ⟨-, -, ht⟩ | ⟨-, -, ht⟩ | ⟨-, ht⟩ := encStep_cases s <;> rw [ht] at hne ⊢
    · exact .inl rfl
    · exact absurd rfl hne
    · exact absurd rfl hne
  · obtain ⟨-, ht⟩ | ⟨-, -, ht⟩ | ⟨-, -, -, ht⟩ | ⟨-, -, -, ht⟩ := decStep_cases s <;> rw [ht] at hne ⊢
    · exact .inl rfl
    · exact .inr (.inl ⟨rfl, rfl, .inl hp⟩)
    · exact absurd rfl hne
    · exact absurd rfl hne
  · exact absurd rfl hne
  · exact absurd rfl hne

end Sys2Proof.Claims
end
